-- ==== Sys2Proof/Word.lean ====
section
/-! DEFINITION. The word types of the block: bytes, command words and two-bit values.
Every register is 8 bits wide (00_scope.md R7), a command is one 32-bit word (30_encoding.md R90),
a colour index and a shade are two bits (00_scope.md, glossary). -/

namespace Sys2Proof

/-- A byte: a register, an element of VRAM, OAM, WORK or DONE (20_memory.md R60). -/
abbrev Byte := BitVec 8

/-- A command word (30_encoding.md R90). -/
abbrev Word := BitVec 32

/-- The two-bit value read from a tile's two bit planes (20_memory.md R64); an entry of SHADOW. -/
abbrev ColourIndex := BitVec 2

/-- The two-bit value a palette maps a colour index to (42_bg_window.md R172). -/
abbrev Shade := BitVec 2

end Sys2Proof
end

