-- ==== Sys2Proof/Syntax.lean ====
section
/-! DEFINITION. The commands of the block, one constructor for each row of spec/opcode_table.json
(30_encoding.md R96), each with the operands of its format (R91..R95), and the names of the eleven registers. -/

namespace Sys2Proof

/-- A command. ADDR keeps all its 16 bits, those a command ignores among them (30_encoding.md R93). -/
inductive Instr where
  /-- STEP N (R91, 40_step.md R110). -/
  | step (n : BitVec 28)
  /-- RESET.HARD (R92, 45_control.md R260). -/
  | resetHard
  /-- RESET.SOFT (R92, 45_control.md R262). -/
  | resetSoft
  /-- POST_BOOT (R92, 45_control.md R264). -/
  | postBoot
  /-- REG_RD ADDR (R93, 44_access.md R225). -/
  | regRd (addr : BitVec 16)
  /-- REG_WR ADDR, DATA (R93, 44_access.md R226). -/
  | regWr (addr : BitVec 16) (data : Byte)
  /-- VRAM_RD ADDR (R93, 44_access.md R230). -/
  | vramRd (addr : BitVec 16)
  /-- VRAM_WR ADDR, DATA (R93, 44_access.md R231). -/
  | vramWr (addr : BitVec 16) (data : Byte)
  /-- OAM_RD ADDR (R93, 44_access.md R232). -/
  | oamRd (addr : BitVec 16)
  /-- OAM_WR ADDR, DATA (R93, 44_access.md R233). -/
  | oamWr (addr : BitVec 16) (data : Byte)
  /-- DMA PAGE (R94, 44_access.md R234). -/
  | dma (page : Byte)
  /-- FRAME_RD IDX (R95, 44_access.md R235). -/
  | frameRd (idx : BitVec 17)
deriving DecidableEq, Repr

/-- The registers of the register bank (10_state.md R20). -/
inductive Reg where
  | lcdc | stat | scy | scx | ly | lyc | bgp | obp0 | obp1 | wy | wx
deriving DecidableEq, Repr

end Sys2Proof
end

