-- ==== Sys2Proof/Decode.lean ====
section
/-! DEFINITION. Decoding and encoding of command words (30_encoding.md R90..R103). The decoder is the opcode map of R96
as a list of rows, searched in order (R103); it is total and refuses by name. The encoder writes each format's fields
side by side, from bit 31 down. -/

namespace Sys2Proof

/-- Why a word is no command (R98, R99). -/
inductive DecodeError where
  /-- OP is 0x0 or 0xC..0xF (R98). -/
  | reservedOpcode
  /-- OP is assigned and a field "reserved, must be 0" is not 0 (R99). -/
  | reservedField
deriving DecidableEq, Repr

/-- What a word decodes to. -/
inductive Decoded where
  | command (i : Instr)
  | refuse (e : DecodeError)
deriving DecidableEq, Repr

/-- N = w[27:0] (R97). -/
def fieldN (w : Word) : BitVec 28 := w.extractLsb' 0 28
/-- ADDR = w[23:8] (R97). -/
def fieldAddr (w : Word) : BitVec 16 := w.extractLsb' 8 16
/-- DATA = w[7:0] (R97). -/
def fieldData (w : Word) : Byte := w.extractLsb' 0 8
/-- PAGE = w[7:0] (R97). -/
def fieldPage (w : Word) : Byte := w.extractLsb' 0 8
/-- IDX = w[16:0] (R97). -/
def fieldIdx (w : Word) : BitVec 17 := w.extractLsb' 0 17
/-- OP = w[31:28] (R90). -/
def fieldOp (w : Word) : BitVec 4 := w.extractLsb' 28 4

/-- ADDR[7:0], the part of ADDR that selects a register or an OAM byte (30_encoding.md R93). -/
abbrev lowByte (addr : BitVec 16) : Byte := addr.extractLsb' 0 8

/-- A row of the opcode map (R96): a word matches it when its masked bits equal `pattern`. -/
structure Row where
  mnemonic : String
  mask     : Word
  pattern  : Word
  build    : Word → Instr

/-- The opcode map of R96, in its order. -/
def opcodeMap : List Row :=
  [ ⟨"STEP",       0xF0000000, 0x10000000, fun w => .step (fieldN w)⟩,
    ⟨"RESET.HARD", 0xFFFFFFFF, 0x20000001, fun _ => .resetHard⟩,
    ⟨"RESET.SOFT", 0xFFFFFFFF, 0x20000000, fun _ => .resetSoft⟩,
    ⟨"POST_BOOT",  0xFFFFFFFF, 0x30000000, fun _ => .postBoot⟩,
    ⟨"REG_RD",     0xFF0000FF, 0x40000000, fun w => .regRd (fieldAddr w)⟩,
    ⟨"REG_WR",     0xFF000000, 0x50000000, fun w => .regWr (fieldAddr w) (fieldData w)⟩,
    ⟨"VRAM_RD",    0xFF0000FF, 0x60000000, fun w => .vramRd (fieldAddr w)⟩,
    ⟨"VRAM_WR",    0xFF000000, 0x70000000, fun w => .vramWr (fieldAddr w) (fieldData w)⟩,
    ⟨"OAM_RD",     0xFF0000FF, 0x80000000, fun w => .oamRd (fieldAddr w)⟩,
    ⟨"OAM_WR",     0xFF000000, 0x90000000, fun w => .oamWr (fieldAddr w) (fieldData w)⟩,
    ⟨"DMA",        0xFFFFFF00, 0xA0000000, fun w => .dma (fieldPage w)⟩,
    ⟨"FRAME_RD",   0xFFFE0000, 0xB0000000, fun w => .frameRd (fieldIdx w)⟩ ]

/-- The word matches the row (R96). -/
def rowMatches (w : Word) (r : Row) : Bool := w &&& r.mask == r.pattern

/-- OP has a command of its own: it is none of 0x0 and 0xC..0xF (R96, R98). -/
def opAssigned (w : Word) : Bool :=
  0x1 ≤ (fieldOp w).toNat && (fieldOp w).toNat ≤ 0xB

/-- Decoding (R103): the first row that matches; otherwise a refusal by name. -/
def decode (w : Word) : Decoded :=
  match opcodeMap.find? (rowMatches w) with
  | some r => .command (r.build w)
  | none => if opAssigned w then .refuse .reservedField else .refuse .reservedOpcode

/-- Encoding (R91..R96): the fields of each format, from bit 31 down to bit 0. -/
def encode : Instr → Word
  | .step n => 0x1#4 ++ n
  | .resetHard => 0x2#4 ++ 0#27 ++ 1#1
  | .resetSoft => 0x2#4 ++ 0#27 ++ 0#1
  | .postBoot => 0x3#4 ++ 0#27 ++ 0#1
  | .regRd addr => 0x4#4 ++ 0#4 ++ addr ++ 0#8
  | .regWr addr data => 0x5#4 ++ 0#4 ++ addr ++ data
  | .vramRd addr => 0x6#4 ++ 0#4 ++ addr ++ 0#8
  | .vramWr addr data => 0x7#4 ++ 0#4 ++ addr ++ data
  | .oamRd addr => 0x8#4 ++ 0#4 ++ addr ++ 0#8
  | .oamWr addr data => 0x9#4 ++ 0#4 ++ addr ++ data
  | .dma page => 0xA#4 ++ 0#20 ++ page
  | .frameRd idx => 0xB#4 ++ 0#11 ++ idx

/-- The word a table row of `nbits` bits stands for: the bits above `nbits` are 0. A command is one 32-bit word and the
command port takes it whole, so there is no byte order to choose (30_encoding.md R90, 20_memory.md R71). -/
def tableWord (nbits w : Nat) : Word := BitVec.ofNat 32 (w % 2 ^ nbits)

/-- The command the decoder reads from a table row's word. -/
def decodeTableWord (nbits w : Nat) : Option Instr :=
  match decode (tableWord nbits w) with
  | .command i => some i
  | .refuse _ => none

end Sys2Proof
end

