-- ==== Sys2Proof/Config.lean ====
section
/-! DEFINITION. What is fixed for the machine, and what the spec leaves to its surroundings:
the sizes of 00_scope.md R6 and R7, the parameters of 00_scope.md R8, and the two free values. -/

namespace Sys2Proof

/-- The four phases of the scanline (10_state.md R24, R34), the spec's OAM, DRAW, HBLANK and VBLANK. -/
inductive Mode where
  | hblank
  | vblank
  | oamSearch
  | draw
deriving DecidableEq, Repr

/-- One colour: its four bytes, stored in the order R, G, B, A (42_bg_window.md R173). -/
structure Colour where
  r : Byte
  g : Byte
  b : Byte
  a : Byte
deriving DecidableEq, Repr, Inhabited

/-- COLOR_TABLE: one colour for each shade 0..3 (10_state.md R48). -/
structure ColorTable where
  shade0 : Colour
  shade1 : Colour
  shade2 : Colour
  shade3 : Colour
deriving DecidableEq, Repr

/-- POST_BOOT: one byte for each register of the bank (00_scope.md R8). -/
structure PostBoot where
  lcdc : Byte
  stat : Byte
  scy  : Byte
  scx  : Byte
  ly   : Byte
  lyc  : Byte
  bgp  : Byte
  obp0 : Byte
  obp1 : Byte
  wy   : Byte
  wx   : Byte
deriving DecidableEq, Repr

/-- The parameters of the step relation (00_scope.md R8, 10_state.md R48, R50). No command writes them. -/
structure Params where
  /-- COLOR_TABLE. -/
  colorTable   : ColorTable
  /-- LAYER_BG. -/
  layerBg      : Bool
  /-- LAYER_WIN. -/
  layerWin     : Bool
  /-- LAYER_OBJ. -/
  layerObj     : Bool
  /-- POST_BOOT. -/
  postBoot     : PostBoot
  /-- POST_BOOT_MODE. -/
  postBootMode : Mode
  /-- Answers of the external bus that the host has fixed: (address, byte) pairs.
  An address not listed is answered by the oracle `Config.busRead` (log 9). -/
  bus          : List (Nat × Byte)
deriving DecidableEq, Repr

namespace Config

/-- Visible pixels of a scanline (R6). -/
abbrev lineWidth : Nat := 160
/-- Visible lines of a frame (R7). -/
abbrev frameHeight : Nat := 144
/-- Bytes of VRAM (R6). -/
abbrev vramSize : Nat := 8192
/-- Bytes of OAM (R6). -/
abbrev oamSize : Nat := 160
/-- Bytes of WORK and of DONE: 160 × 144 × 4 (R7). -/
abbrev frameSize : Nat := 92160
/-- Entries of SHADOW: 160 × 144 (R7). -/
abbrev shadowSize : Nat := 23040
/-- The most entries the scanline selection holds (R6). -/
abbrev selLimit : Nat := 10
/-- The first value the 32-bit cycle counter cannot hold (R7). -/
abbrev cycleLimit : Nat := 4294967296

/-- FREE VALUE (log 9). The external bus's answer (10_state.md R47) to the n-th byte it is asked for since
reset, at a 16-bit address whose answer the host has not fixed. Nothing is known of it. -/
opaque busRead : Nat → Nat → Byte

/-- FREE VALUE (log 6). The colour table the configuration supplies at reset: 00_scope.md R8 gives no default,
"a model quantifies over it". The argument is the shade. -/
opaque colorTableAtReset : Nat → Colour

/-- The post-boot values of 45_control.md R266, which the spec marks as general knowledge (log 7). -/
def postBootDefault : PostBoot where
  lcdc := 0x91
  stat := 0x85
  scy  := 0x00
  scx  := 0x00
  ly   := 0x00
  lyc  := 0x00
  bgp  := 0xFC
  obp0 := 0xFF
  obp1 := 0xFF
  wy   := 0x00
  wx   := 0x00

/-- The parameters at reset (00_scope.md R8; logs 5 to 9). -/
def paramsAtReset : Params where
  colorTable := ⟨colorTableAtReset 0, colorTableAtReset 1, colorTableAtReset 2, colorTableAtReset 3⟩
  layerBg := true
  layerWin := true
  layerObj := true
  postBoot := postBootDefault
  postBootMode := .vblank
  bus := []

end Config
end Sys2Proof
end

