-- ==== Sys2Proof/Machine/State.lean ====
section
/-! DEFINITION. The state of the block (10_state.md R50), its ports and parameters, the ways a command can stop
(60_exceptions.md R281), and the state after RESET.HARD (70_reset_and_hazards.md R310, R311). -/

namespace Sys2Proof.Machine

/-- The kinds of request the block emits (10_state.md R46). -/
inductive Irq where
  | vblank
  | stat
deriving DecidableEq, Repr

/-- An element of the scanline selection: a copy of OAM entry `index` (10_state.md R41). -/
structure SelEntry where
  index : Fin 40
  y     : Byte
  x     : Byte
  tile  : Byte
  attr  : Byte
deriving DecidableEq, Repr

/-- A memory space with elements of `w` bits: (address, element) pairs, addresses strictly rising, no element 0 listed.
An address that is not listed reads as 0, which is what RESET.HARD leaves everywhere (45_control.md R261).
With `w` = 8 this is a list of `Host.Cell`. -/
abbrev Memory (w : Nat) := List (Nat × BitVec w)

/-- The whole state. Up to `shadow` it is the record of 10_state.md R50; the rest are the block's ports, the parameters
of the step relation, and the model's own counter. -/
structure State where
  lcdc : Byte
  stat : Byte
  scy  : Byte
  scx  : Byte
  ly   : Byte
  lyc  : Byte
  bgp  : Byte
  obp0 : Byte
  obp1 : Byte
  wy   : Byte
  wx   : Byte
  mode        : Mode
  /-- The cycle accumulator (10_state.md R35). -/
  cycles      : BitVec 32
  /-- The was_disabled latch (10_state.md R36). -/
  wasDisabled : Bool
  /-- The window draw flag (10_state.md R37). -/
  winFlag     : Bool
  /-- The window line counter (10_state.md R38). -/
  winLine     : Byte
  /-- The scanline selection, highest priority first (10_state.md R40). -/
  sel         : List SelEntry
  vram        : Memory 8
  oam         : Memory 8
  /-- WORK, the working frame buffer (10_state.md R42). -/
  work        : Memory 8
  /-- DONE, the completed frame buffer (10_state.md R42). -/
  doneBuf     : Memory 8
  /-- SHADOW, the colour indices of the background and window (10_state.md R42). -/
  shadow      : Memory 2
  /-- Response port: the byte the last command answered, if it was a read (10_state.md R45; log 3). -/
  response    : Option Byte
  /-- Interrupt request output: the requests the last command made, in order (10_state.md R46; log 3). -/
  requests    : List Irq
  /-- Command port: the words the host has still to present, in order (10_state.md R45; log 1). -/
  commands    : List Word
  /-- The parameters of the step relation (00_scope.md R8; log 4). -/
  params      : Params
  /-- The MODEL's own counter: bus bytes asked for so far (log 10). -/
  busReads    : Nat
deriving DecidableEq, Repr

/-- How a command can leave the defined state space (60_exceptions.md R281). -/
inductive Fault where
  /-- Raised by STEP when a line would be rendered at LY >= 144 (42_bg_window.md R166), where WORK and SHADOW have no line.
  Safe: the run ends with no outcome, so nothing can be proved about what follows. -/
  | renderOutsideFrame
deriving DecidableEq, Repr

/-- Why a command is refused, its state unchanged and the run marked refused (60_exceptions.md R281). -/
inductive Refusal where
  /-- Raised by `step` for a word whose OP is 0x0 or 0xC..0xF (30_encoding.md R98). Safe. -/
  | reservedOpcode
  /-- Raised by `step` for a word with a nonzero reserved field (30_encoding.md R99). Safe. -/
  | reservedField
  /-- Raised by REG_RD and REG_WR where no register is (44_access.md R225, R226). Safe. -/
  | noRegister
  /-- Raised by OAM_RD and OAM_WR at an offset of 160 or more (44_access.md R232, R233). Safe. -/
  | outsideOam
  /-- Raised by FRAME_RD at an index of 92160 or more (44_access.md R235). Safe. -/
  | outsideFrame
  /-- Raised by STEP when the cycle counter would reach 2^32 (40_step.md R116). Safe. -/
  | cycleOverflow
  /-- Raised by `exec` for a command with no meaning yet; no arm of this model uses it. Safe. -/
  | notModelled (mnemonic : String)
deriving DecidableEq, Repr

/-- The state right after RESET.HARD (70_reset_and_hazards.md R310, R311), with nothing on the ports and the parameters
at their defaults (logs 1, 3 to 10). -/
def State.reset : State where
  lcdc := 0
  stat := 0
  scy  := 0
  scx  := 0
  ly   := 0
  lyc  := 0
  bgp  := 0
  obp0 := 0
  obp1 := 0
  wy   := 0
  wx   := 0
  mode := .hblank
  cycles := 0
  wasDisabled := false
  winFlag := false
  winLine := 0
  sel := []
  vram := []
  oam := []
  work := []
  doneBuf := []
  shadow := []
  response := none
  requests := []
  commands := []
  params := Config.paramsAtReset
  busReads := 0

end Sys2Proof.Machine
end

