-- ==== Sys2Proof/Machine/Flags.lean ====
section
/-! DEFINITION. The bit fields of LCDC, STAT and the OAM attribute byte (10_state.md R21, R23, 20_memory.md R68), the mode
codes (10_state.md R24), and every rule that computes a flag. The positions are the spec's own choice (D5, D6, D10; log 17). -/

namespace Sys2Proof.Machine

/-! ### LCDC fields (10_state.md R21) -/

/-- LCDC.LCD_EN: the display is enabled. -/
def lcdEn (lcdc : Byte) : Bool := lcdc.getLsbD 7
/-- LCDC.WIN_MAP: the window's tile map is the one at 0x1C00. -/
def winMap (lcdc : Byte) : Bool := lcdc.getLsbD 6
/-- LCDC.WIN_EN: the window is on. -/
def winEn (lcdc : Byte) : Bool := lcdc.getLsbD 5
/-- LCDC.TILE_SEL: unsigned tile-data addressing. -/
def tileSel (lcdc : Byte) : Bool := lcdc.getLsbD 4
/-- LCDC.BG_MAP: the background's tile map is the one at 0x1C00. -/
def bgMap (lcdc : Byte) : Bool := lcdc.getLsbD 3
/-- LCDC.OBJ_SIZE: sprites are 8×16. -/
def objSize (lcdc : Byte) : Bool := lcdc.getLsbD 2
/-- LCDC.OBJ_EN: sprites are on. -/
def objEn (lcdc : Byte) : Bool := lcdc.getLsbD 1
/-- LCDC.BG_EN: the background is on. -/
def bgEn (lcdc : Byte) : Bool := lcdc.getLsbD 0

/-! ### STAT fields (10_state.md R23) -/

/-- STAT.LYC_INT: enables the LYC coincidence request. -/
def lycInt (stat : Byte) : Bool := stat.getLsbD 6
/-- STAT.OAM_INT: enables the OAMSearch-entry request. -/
def oamInt (stat : Byte) : Bool := stat.getLsbD 5
/-- STAT.VBL_INT: enables the VBlank-entry request. -/
def vblInt (stat : Byte) : Bool := stat.getLsbD 4
/-- STAT.HBL_INT: enables the HBlank-entry request. -/
def hblInt (stat : Byte) : Bool := stat.getLsbD 3
/-- STAT.LYC_EQ: the LYC==LY flag, as stored. -/
def lycEq (stat : Byte) : Bool := stat.getLsbD 2
/-- STAT.MODE: bits 1:0. -/
def statMode (stat : Byte) : BitVec 2 := stat.extractLsb' 0 2

/-- The code of a mode in STAT.MODE (10_state.md R24). -/
def modeCode : Mode → BitVec 2
  | .hblank => 0
  | .vblank => 1
  | .oamSearch => 2
  | .draw => 3

/-- `STAT[1:0] <- code(mode)`, the other bits kept (40_step.md R112, R131). -/
def setModeBits (stat : Byte) (m : Mode) : Byte :=
  (stat &&& 0xFC) ||| (modeCode m).setWidth 8

/-- `STAT.LYC_EQ <- b`, the other bits kept (40_step.md R128). -/
def setLycEq (stat : Byte) (b : Bool) : Byte :=
  if b then stat ||| 0x04 else stat &&& 0xFB

/-- A host write to STAT: bits 7..2 from the written value, bits 1..0 kept (10_state.md R25, 44_access.md R227). -/
def hostWriteStat (stat v : Byte) : Byte :=
  (v &&& 0xFC) ||| (stat &&& 0x03)

/-! ### The gate, the LYC compare, the window flag -/

/-- AnyStat: some STAT condition holds, read from STAT and mode as they stand (40_step.md R115). -/
def anyStat (stat : Byte) (m : Mode) : Bool :=
  (lycInt stat && lycEq stat)
    || (oamInt stat && m == .oamSearch)
    || (vblInt stat && m == .vblank)
    || (hblInt stat && m == .hblank)

/-- The LYC request is due: the compare sets LYC_EQ while it was 0, LYC_INT is 1 and the gate is open (40_step.md R129). -/
def lycRequestDue (allowed : Bool) (stat ly lyc : Byte) : Bool :=
  ly == lyc && !lycEq stat && lycInt stat && allowed

/-! ### OAM attribute bits (20_memory.md R68) -/

/-- PRIO: the pixel is drawn only over shadow index 0. -/
def attrPrio (attr : Byte) : Bool := attr.getLsbD 7
/-- YFLIP: rows are mirrored. -/
def attrYFlip (attr : Byte) : Bool := attr.getLsbD 6
/-- XFLIP: columns are mirrored. -/
def attrXFlip (attr : Byte) : Bool := attr.getLsbD 5
/-- PAL: the palette is OBP1. -/
def attrPal (attr : Byte) : Bool := attr.getLsbD 4

/-! ### Interrupt kinds -/

/-- The code of a request on the interrupt output (10_state.md R46, 60_exceptions.md R286). -/
def irqCode : Irq → Nat
  | .vblank => 0
  | .stat => 1

end Sys2Proof.Machine
end

