-- ==== Sys2Proof/WellFormed.lean ====
section
/-! DEFINITION. Well-formed commands: those whose operand meets the contract of 30_encoding.md R100, as far as the
operand alone decides it. R103 keeps these checks out of decoding: an ill-formed command decodes, and its meaning
refuses it. The last row of R100 (the cycle counter) depends on the state and is no matter of the command's form. -/

namespace Sys2Proof

/-- A register stands at this address: ADDR[7:0] in 0x40..0x4B and not 0x46 (R100, 10_state.md R20). -/
def namesRegister (addr : BitVec 16) : Bool :=
  let r := (lowByte addr).toNat
  0x40 ≤ r && r ≤ 0x4B && r ≠ 0x46

/-- The offset lies inside the object table: ADDR[7:0] below 160 (R100). -/
def insideOam (addr : BitVec 16) : Bool :=
  (lowByte addr).toNat < Config.oamSize

/-- The index lies inside the frame buffer: IDX below 92160 (R100). -/
def insideFrame (idx : BitVec 17) : Bool :=
  idx.toNat < Config.frameSize

/-- The operand of the command is inside the contract of R100. -/
def Instr.wellFormed : Instr → Bool
  | .step _ => true
  | .resetHard => true
  | .resetSoft => true
  | .postBoot => true
  | .regRd addr => namesRegister addr
  | .regWr addr _ => namesRegister addr
  | .vramRd _ => true
  | .vramWr _ _ => true
  | .oamRd addr => insideOam addr
  | .oamWr addr _ => insideOam addr
  | .dma _ => true
  | .frameRd idx => insideFrame idx

end Sys2Proof
end

