-- ==== Sys2Proof/Machine/Operands.lean ====
section
/-! DEFINITION. The operand forms of the commands: what ADDR, PAGE and IDX select (30_encoding.md R93, R97). -/

namespace Sys2Proof.Machine

/-- The register ADDR selects by its low byte, if one stands there (10_state.md R20, 44_access.md R225). -/
def regOfAddr (addr : BitVec 16) : Option Reg :=
  match (lowByte addr).toNat with
  | 0x40 => some .lcdc
  | 0x41 => some .stat
  | 0x42 => some .scy
  | 0x43 => some .scx
  | 0x44 => some .ly
  | 0x45 => some .lyc
  | 0x47 => some .bgp
  | 0x48 => some .obp0
  | 0x49 => some .obp1
  | 0x4A => some .wy
  | 0x4B => some .wx
  | _ => none

/-- The bus address of a register, which its name assembles to (10_state.md R20, 30_encoding.md R104). -/
def regAddr : Reg → BitVec 16
  | .lcdc => 0xFF40
  | .stat => 0xFF41
  | .scy  => 0xFF42
  | .scx  => 0xFF43
  | .ly   => 0xFF44
  | .lyc  => 0xFF45
  | .bgp  => 0xFF47
  | .obp0 => 0xFF48
  | .obp1 => 0xFF49
  | .wy   => 0xFF4A
  | .wx   => 0xFF4B

/-- The VRAM index of ADDR: `ADDR & 0x1FFF` (20_memory.md R61). -/
def vramIndex (addr : BitVec 16) : Nat := (addr &&& 0x1FFF).toNat

/-- The OAM offset of ADDR: `ADDR[7:0]` (44_access.md R232). -/
def oamOffset (addr : BitVec 16) : Nat := (lowByte addr).toNat

/-- The bus address of byte `i` of a DMA: `PAGE * 256 + i` (44_access.md R234). -/
def dmaSource (page : Byte) (i : Nat) : Nat := page.toNat * 256 + i

end Sys2Proof.Machine
end

