-- ==== Sys2Proof/Machine/Ops.lean ====
section
/-! DEFINITION. The shared operations: memory spaces, the register bank, the ports, the two resets and the publish.
The block takes no exception and returns from none (60_exceptions.md R280, R289, R290): the nearest thing to one is
`request`, an output and nothing more. -/

namespace Sys2Proof.Machine

/-! ### Memory spaces (20_memory.md R60) -/

/-- `MemRead(S, a, 1)`; an address that is not listed reads as 0 (45_control.md R261). -/
def memRead {w : Nat} : Memory w → Nat → BitVec w
  | [], _ => 0
  | (b, v) :: m, a => if b = a then v else memRead m a

/-- The cells that hold `vals` from address `base` on; a 0 needs no cell. -/
def memCells {w : Nat} : Nat → List (BitVec w) → Memory w
  | _, [] => []
  | base, v :: vals =>
    if v = 0 then memCells (base + 1) vals else (base, v) :: memCells (base + 1) vals

/-- Consecutive `MemWrite`s of `vals` from address `base` on. -/
def memWriteBlock {w : Nat} (m : Memory w) (base : Nat) (vals : List (BitVec w)) : Memory w :=
  m.filter (fun c => c.1 < base) ++ memCells base vals ++ m.filter (fun c => base + vals.length ≤ c.1)

/-- `MemWrite(S, a, 1, v)`. -/
def memWrite {w : Nat} (m : Memory w) (a : Nat) (v : BitVec w) : Memory w :=
  memWriteBlock m a [v]

/-- The canonical form of a space of `size` elements: addresses strictly rising and below `size`, no 0 listed. -/
abbrev Memory.wf {w : Nat} (size : Nat) (m : Memory w) : Prop :=
  m.Pairwise (fun c d => c.1 < d.1) ∧ ∀ c ∈ m, c.1 < size ∧ c.2 ≠ 0

/-! ### Register bank (10_state.md R20) -/

/-- `Reg(r)`, the stored byte (44_access.md R225). -/
def readReg (s : State) : Reg → Byte
  | .lcdc => s.lcdc
  | .stat => s.stat
  | .scy  => s.scy
  | .scx  => s.scx
  | .ly   => s.ly
  | .lyc  => s.lyc
  | .bgp  => s.bgp
  | .obp0 => s.obp0
  | .obp1 => s.obp1
  | .wy   => s.wy
  | .wx   => s.wx

/-- A host write of a register (44_access.md R226): STAT keeps its mode bits (R227), LY changes nothing (R228),
every other register stores the byte whole (R229). -/
def hostWriteReg (s : State) (v : Byte) : Reg → State
  | .lcdc => { s with lcdc := v }
  | .stat => { s with stat := hostWriteStat s.stat v }
  | .scy  => { s with scy := v }
  | .scx  => { s with scx := v }
  | .ly   => s
  | .lyc  => { s with lyc := v }
  | .bgp  => { s with bgp := v }
  | .obp0 => { s with obp0 := v }
  | .obp1 => { s with obp1 := v }
  | .wy   => { s with wy := v }
  | .wx   => { s with wx := v }

/-- POST_BOOT's write of the bank: every register takes its parameter, LY and all of STAT included (45_control.md R265). -/
@[simps] def loadPostBootRegs (s : State) (p : PostBoot) : State :=
  { s with
    lcdc := p.lcdc, stat := p.stat, scy := p.scy, scx := p.scx, ly := p.ly, lyc := p.lyc,
    bgp := p.bgp, obp0 := p.obp0, obp1 := p.obp1, wy := p.wy, wx := p.wx }

/-! ### Ports -/

/-- A command begins: the two output ports hold nothing of the command before it (10_state.md R45, R46; log 3). -/
@[simps] def clearOutputs (s : State) : State :=
  { s with response := none, requests := [] }

/-- `respond(v)`: byte `v` on the response port (10_state.md R45). -/
@[simps] def respond (v : Byte) (s : State) : State :=
  { s with response := some v }

/-- `request(k)`: the interrupt output's list grows by `k` (10_state.md R46, 60_exceptions.md R284). -/
@[simps] def request (k : Irq) (s : State) : State :=
  { s with requests := s.requests ++ [k] }

/-- `request(STAT)` when `due` (40_step.md R121, R124, R125, R127, R129). -/
@[simps] def requestStatIf (due : Bool) (s : State) : State :=
  { s with requests := if due then (request .stat s).requests else s.requests }

/-- The answer of the external bus to the `i`-th read of a DMA, at bus address `a` (10_state.md R47; log 9):
the byte the host has fixed for `a`, else the oracle's next free value. -/
def busAnswer (s : State) (i a : Nat) : Byte :=
  match s.params.bus.find? (fun c => c.1 == a) with
  | some c => c.2
  | none => Config.busRead (s.busReads + i) a

/-! ### Resets and publish -/

/-- SoftReset (45_control.md R263). -/
@[simps] def softReset (s : State) : State :=
  { s with cycles := 0, ly := 0, winFlag := false, winLine := 0 }

/-- HardReset (45_control.md R261): every element of the block; the ports' inputs, the parameters and the model's
counter are no part of it. -/
@[simps] def hardReset (s : State) : State :=
  { s with
    lcdc := 0, stat := 0, scy := 0, scx := 0, ly := 0, lyc := 0, bgp := 0, obp0 := 0, obp1 := 0, wy := 0, wx := 0,
    vram := [], oam := [], work := [], doneBuf := [], shadow := [],
    mode := .hblank, cycles := 0, winFlag := false, winLine := 0, wasDisabled := false, sel := [] }

/-- Publish: DONE becomes a copy of WORK, in one action (40_step.md R127, 20_memory.md R82). -/
@[simps] def publish (s : State) : State :=
  { s with doneBuf := s.work }

end Sys2Proof.Machine
end

