-- ==== Sys2Proof/Machine/Access.lean ====
section
/-! DEFINITION. The access commands (44_access.md R225..R236): registers, VRAM, OAM, DMA and the frame read.
None advances time, changes the mode or requests an interrupt (R236). -/

namespace Sys2Proof.Machine

/-- REG_RD (44_access.md R225). -/
def execRegRd (addr : BitVec 16) (s : State) : Host.Outcome State Fault Refusal :=
  match regOfAddr addr with
  | some r => .next (respond (readReg s r) (clearOutputs s))
  | none => .refused .noRegister

/-- REG_WR (44_access.md R226..R229). -/
def execRegWr (addr : BitVec 16) (data : Byte) (s : State) : Host.Outcome State Fault Refusal :=
  match regOfAddr addr with
  | some r => .next (hostWriteReg (clearOutputs s) data r)
  | none => .refused .noRegister

/-- VRAM_RD (44_access.md R230), allowed in every mode (20_memory.md R75). -/
def execVramRd (addr : BitVec 16) (s : State) : Host.Outcome State Fault Refusal :=
  .next (respond (memRead s.vram (vramIndex addr)) (clearOutputs s))

/-- VRAM_WR (44_access.md R231), allowed in every mode (20_memory.md R75). -/
def execVramWr (addr : BitVec 16) (data : Byte) (s : State) : Host.Outcome State Fault Refusal :=
  .next { clearOutputs s with vram := memWrite s.vram (vramIndex addr) data }

/-- OAM_RD (44_access.md R232). -/
def execOamRd (addr : BitVec 16) (s : State) : Host.Outcome State Fault Refusal :=
  if Config.oamSize ≤ oamOffset addr then .refused .outsideOam
  else .next (respond (memRead s.oam (oamOffset addr)) (clearOutputs s))

/-- OAM_WR (44_access.md R233). -/
def execOamWr (addr : BitVec 16) (data : Byte) (s : State) : Host.Outcome State Fault Refusal :=
  if Config.oamSize ≤ oamOffset addr then .refused .outsideOam
  else .next { clearOutputs s with oam := memWrite s.oam (oamOffset addr) data }

/-- The 160 bytes the bus answers to a DMA, in the order they are asked for (44_access.md R234). -/
def dmaBytes (page : Byte) (s : State) : List Byte :=
  (List.range Config.oamSize).map (fun i => busAnswer s i (dmaSource page i))

/-- DMA (44_access.md R234): OAM takes the bus's 160 answers, in one command and in no time (70_reset_and_hazards.md R325;
log 20). -/
def execDma (page : Byte) (s : State) : Host.Outcome State Fault Refusal :=
  .next { clearOutputs s with
    oam := memWriteBlock s.oam 0 (dmaBytes page s)
    busReads := s.busReads + Config.oamSize }

/-- FRAME_RD (44_access.md R235). -/
def execFrameRd (idx : BitVec 17) (s : State) : Host.Outcome State Fault Refusal :=
  if Config.frameSize ≤ idx.toNat then .refused .outsideFrame
  else .next (respond (memRead s.doneBuf idx.toNat) (clearOutputs s))

end Sys2Proof.Machine
end

