-- ==== Sys2Proof/Machine/Control.lean ====
section
/-! DEFINITION. The control commands (45_control.md R260..R266). None emits an interrupt. -/

namespace Sys2Proof.Machine

/-- RESET.HARD (45_control.md R260, R261). -/
def execResetHard (s : State) : Host.Outcome State Fault Refusal :=
  .next (hardReset (clearOutputs s))

/-- RESET.SOFT (45_control.md R262, R263). -/
def execResetSoft (s : State) : Host.Outcome State Fault Refusal :=
  .next (softReset (clearOutputs s))

/-- POST_BOOT (45_control.md R264, R265): the registers and the mode take their parameters, nothing else changes. -/
def execPostBoot (s : State) : Host.Outcome State Fault Refusal :=
  .next { loadPostBootRegs (clearOutputs s) s.params.postBoot with mode := s.params.postBootMode }

end Sys2Proof.Machine
end

