-- ==== Sys2Proof/Machine/Tiles.lean ====
section
/-! DEFINITION. Tiles, palettes and colours: the packed data of the block (42_bg_window.md R184) and the tile fetch the
background and the window share (42_bg_window.md R169..R173, R179). -/

namespace Sys2Proof.Machine

/-- TilePixel: the low plane gives bit 0 of the index, the high plane bit 1 (20_memory.md R64). -/
def tilePixel (lo hi : Byte) (b : Nat) : ColourIndex :=
  BitVec.ofBool (hi.getLsbD b) ++ BitVec.ofBool (lo.getLsbD b)

/-- Shade: `(P >> (2 * ci)) & 3` (42_bg_window.md R172). -/
def shadeOf (p : Byte) (ci : ColourIndex) : Shade := p.extractLsb' (2 * ci.toNat) 2

/-- `COLOR_TABLE[s]` (10_state.md R48). -/
def colourAt (t : ColorTable) (s : Shade) : Colour :=
  match s.toNat with
  | 0 => t.shade0
  | 1 => t.shade1
  | 2 => t.shade2
  | _ => t.shade3

/-- The four bytes of a colour, in the order they are stored (42_bg_window.md R173, 20_memory.md R69). -/
def colourBytes (c : Colour) : List Byte := [c.r, c.g, c.b, c.a]

/-- The tile map a selector bit of LCDC chooses (20_memory.md R62, 42_bg_window.md R169, R179). -/
def mapBase (sel : Bool) : Nat := if sel then 0x1C00 else 0x1800

/-- BgTileAddr: unsigned from 0x0000, or signed from 0x1000 (20_memory.md R65). -/
def bgTileAddr (lcdc id : Byte) : Nat :=
  if tileSel lcdc then 16 * id.toNat else (0x1000 + 16 * id.toInt).toNat

/-- The tile identifier at pixel (x, y) of a map: `m + 32 * ((y div 8) mod 32) + ((x div 8) mod 32)` (20_memory.md R66). -/
def tileId (vram : Memory 8) (m x y : Nat) : Byte :=
  memRead vram (m + 32 * ((y / 8) % 32) + (x / 8) % 32)

/-- Pixel bit `b` of the tile row whose low byte stands at `ta` (20_memory.md R63, R64). -/
def rowPixel (vram : Memory 8) (ta b : Nat) : ColourIndex :=
  tilePixel (memRead vram ta) (memRead vram (ta + 1)) b

/-- The colour index at pixel (x, y) of a map, as background and window fetch it (42_bg_window.md R170, R171, R179). -/
def mapPixel (vram : Memory 8) (lcdc : Byte) (m x y : Nat) : ColourIndex :=
  rowPixel vram (bgTileAddr lcdc (tileId vram m x y) + 2 * (y % 8)) (7 - x % 8)

/-- A pixel of the line being rendered: its entry of SHADOW and its colour in WORK. -/
structure Pixel where
  ci     : ColourIndex
  colour : Colour
deriving DecidableEq, Repr

/-- A background or window pixel of index `ci`: its colour is `COLOR_TABLE[Shade(BGP, ci)]` (42_bg_window.md R172..R174, R180). -/
@[simps] def layerPixel (s : State) (ci : ColourIndex) : Pixel where
  ci := ci
  colour := colourAt s.params.colorTable (shadeOf s.bgp ci)

end Sys2Proof.Machine
end

