-- ==== Sys2Proof/Machine/Background.lean ====
section
/-! DEFINITION. The background and window rasterizers (42_bg_window.md R167..R183), one pixel at a time: no pixel of a pass
depends on another pixel of it (R184; log 16). -/

namespace Sys2Proof.Machine

/-- `bg_on` (42_bg_window.md R167). -/
def bgOn (s : State) : Bool := bgEn s.lcdc && s.params.layerBg

/-- The colour index the background pass writes at column `px` (42_bg_window.md R168..R171): 0 when it is off (R175). -/
def bgIndex (s : State) (px : Nat) : ColourIndex :=
  if bgOn s then
    mapPixel s.vram s.lcdc (mapBase (bgMap s.lcdc)) ((s.scx.toNat + px) % 256) ((s.scy.toNat + s.ly.toNat) % 256)
  else 0

/-- The pixel the background pass writes at column `px` (42_bg_window.md R174, R175). -/
def bgPixel (s : State) (px : Nat) : Pixel := layerPixel s (bgIndex s px)

/-- The window pass runs (42_bg_window.md R176). -/
def windowRuns (s : State) : Bool := winEn s.lcdc && s.winFlag && s.params.layerWin

/-- The window's left edge `WX - 7`, an integer (42_bg_window.md R177). -/
def windowLeft (s : State) : Int := (s.wx.toNat : Int) - 7

/-- Column `px` is a window pixel: `LY >= WY` and `px >= WX - 7` (42_bg_window.md R177). -/
def isWindowPixel (s : State) (px : Nat) : Bool :=
  s.wy.toNat ≤ s.ly.toNat && windowLeft s ≤ px

/-- The colour index of the window at column `px`: column `px - (WX - 7)`, row `win_line` (42_bg_window.md R178, R179). -/
def windowIndex (s : State) (px : Nat) : ColourIndex :=
  mapPixel s.vram s.lcdc (mapBase (winMap s.lcdc)) ((px : Int) - windowLeft s).toNat s.winLine.toNat

/-- The window pass at column `px`, over what the background pass left there (42_bg_window.md R176, R180). -/
def windowOver (s : State) (px : Nat) (under : Pixel) : Pixel :=
  if windowRuns s && isWindowPixel s px then layerPixel s (windowIndex s px) else under

/-- The window pass wrote at least one pixel of the line (42_bg_window.md R181). -/
def windowDrawn (s : State) : Bool :=
  windowRuns s && (List.range Config.lineWidth).any (isWindowPixel s)

end Sys2Proof.Machine
end

