-- ==== Sys2Proof/Machine/OamScan.lean ====
section
/-! DEFINITION. The OAM sprite scanner (41_oam_scan.md R150..R157). -/

namespace Sys2Proof.Machine

/-- The sprite height LCDC.OBJ_SIZE gives, at the moment it is read (41_oam_scan.md R151, 43_sprites.md R202). -/
def spriteHeight (lcdc : Byte) : Nat := if objSize lcdc then 16 else 8

/-- A copy of OAM entry `i`: bytes 4i..4i+3 are y, x, tile, attributes (20_memory.md R67, 10_state.md R41). -/
@[simps] def oamEntry (oam : Memory 8) (i : Fin 40) : SelEntry where
  index := i
  y := memRead oam (4 * i.val)
  x := memRead oam (4 * i.val + 1)
  tile := memRead oam (4 * i.val + 2)
  attr := memRead oam (4 * i.val + 3)

/-- The screen line of a sprite's first row, `y - 16`, an integer (20_memory.md R67). -/
def spriteTop (e : SelEntry) : Int := (e.y.toNat : Int) - 16

/-- The visibility test `y - 16 <= LY < y - 16 + h` in unbounded integers (41_oam_scan.md R152). -/
def visibleOn (h : Nat) (ly : Byte) (e : SelEntry) : Bool :=
  spriteTop e ≤ ly.toNat && (ly.toNat : Int) < spriteTop e + h

/-- The first 10 visible entries in index order (41_oam_scan.md R150, R153). -/
def scanFound (s : State) : List SelEntry :=
  (((List.finRange 40).map (oamEntry s.oam)).filter (visibleOn (spriteHeight s.lcdc) s.ly)).take Config.selLimit

/-- The stable sort by ascending x: entries with equal x keep their order (41_oam_scan.md R154). -/
def sortByX (found : List SelEntry) : List SelEntry :=
  found.insertionSort (fun e f => e.x.toNat ≤ f.x.toNat)

/-- OamScan: `sel` is replaced whole, and nothing else changes (41_oam_scan.md R150, R155). -/
@[simps] def oamScan (s : State) : State :=
  { s with sel := sortByX (scanFound s) }

end Sys2Proof.Machine
end

