-- ==== Sys2Proof/Machine/Sprites.lean ====
section
/-! DEFINITION. The sprite compositor (43_sprites.md R200..R213), one pixel at a time (log 16). -/

namespace Sys2Proof.Machine

/-- The sprite pass runs (43_sprites.md R200). -/
def spritesRun (s : State) : Bool := objEn s.lcdc && s.params.layerObj

/-- The tile of an element: bit 0 forced to 0 in 8×16 mode (43_sprites.md R202). -/
def spriteTile (lcdc : Byte) (e : SelEntry) : Nat :=
  if objSize lcdc then (e.tile &&& 0xFE).toNat else e.tile.toNat

/-- The row inside the sprite, mirrored under YFLIP, with the height read at render time (43_sprites.md R203, R204). -/
def spriteRow (s : State) (e : SelEntry) : Nat :=
  let h := spriteHeight s.lcdc
  let row := (((s.ly.toNat : Int) - spriteTop e) % (h : Int)).toNat
  if attrYFlip e.attr then h - 1 - row else row

/-- The column of the sprite that lands on screen column `px`: `px = x - 8 + col` (43_sprites.md R205). -/
def spriteCol (e : SelEntry) (px : Nat) : Int := (px : Int) - ((e.x.toNat : Int) - 8)

/-- The sprite has a column at `px` (43_sprites.md R205). -/
def spriteCovers (e : SelEntry) (px : Nat) : Bool :=
  0 ≤ spriteCol e px && spriteCol e px < 8

/-- The sprite's colour index at column `px`: unsigned tile data (43_sprites.md R207), bit mirrored under XFLIP (R206). -/
def spriteIndex (s : State) (e : SelEntry) (px : Nat) : ColourIndex :=
  let col := (spriteCol e px).toNat
  rowPixel s.vram (16 * spriteTile s.lcdc e + 2 * spriteRow s e) (if attrXFlip e.attr then col else 7 - col)

/-- The palette of an element (43_sprites.md R209). -/
def spritePalette (s : State) (e : SelEntry) : Byte := if attrPal e.attr then s.obp1 else s.obp0

/-- The sprite writes at column `px` over a shadow index: it covers it (R205), is not transparent there (R208), and
passes the background-priority test (R210). -/
def spriteWrites (s : State) (e : SelEntry) (px : Nat) (shadowIndex : ColourIndex) : Bool :=
  spriteCovers e px && spriteIndex s e px != 0 && (!attrPrio e.attr || shadowIndex == 0)

/-- One element of the selection drawn at column `px`: the colour only, never the shadow index (43_sprites.md R211). -/
def spriteOver (s : State) (px : Nat) (e : SelEntry) (under : Pixel) : Pixel :=
  if spriteWrites s e px under.ci then
    { under with colour := colourAt s.params.colorTable (shadeOf (spritePalette s e) (spriteIndex s e px)) }
  else under

/-- The sprite pass at column `px`: from the last element of `sel` to the first, so the first is drawn last
(43_sprites.md R201). -/
def spritesOver (s : State) (px : Nat) (under : Pixel) : Pixel :=
  if spritesRun s then s.sel.foldr (spriteOver s px) under else under

end Sys2Proof.Machine
end

