-- ==== Sys2Proof/Machine/Render.lean ====
section
/-! DEFINITION. The line render (42_bg_window.md R165): background, then window, then sprites, all inputs sampled from one
state. `Machine/PixelLoop.lean` writes the same three passes as the spec's loops. -/

namespace Sys2Proof.Machine

/-- What the three passes leave at column `px` of line LY (42_bg_window.md R165). -/
def linePixel (s : State) (px : Nat) : Pixel :=
  spritesOver s px (windowOver s px (bgPixel s px))

/-- The 160 pixels of line LY. -/
def renderedLine (s : State) : List Pixel := (List.range Config.lineWidth).map (linePixel s)

/-- SHADOW's index of the first pixel of line `ly` (20_memory.md R70). -/
def shadowLineBase (ly : Byte) : Nat := 160 * ly.toNat

/-- WORK's and DONE's index of the first byte of line `ly` (20_memory.md R69). -/
def workLineBase (ly : Byte) : Nat := 640 * ly.toNat

/-- RenderLine: line LY of SHADOW and of WORK is written whole (42_bg_window.md R165, R173, R174), and `win_line` moves on
by 1 when a window pixel was drawn (R181, R182). -/
@[simps] def renderLine (s : State) : State :=
  { s with
    shadow := memWriteBlock s.shadow (shadowLineBase s.ly) ((renderedLine s).map Pixel.ci)
    work := memWriteBlock s.work (workLineBase s.ly) ((renderedLine s).flatMap (fun p => colourBytes p.colour))
    winLine := if windowDrawn s then s.winLine + 1 else s.winLine }

end Sys2Proof.Machine
end

