-- ==== Sys2Proof/Machine/Timing.lean ====
section
/-! DEFINITION. STEP: the timing, mode and interrupt machine (40_step.md R110..R138). -/

namespace Sys2Proof.Machine

/-- The duration of each mode in cycles; VBlank's is that of one line (40_step.md R118, 70_reset_and_hazards.md R326). -/
def duration : Mode → Nat
  | .oamSearch => 80
  | .draw => 172
  | .hblank => 204
  | .vblank => 456

/-- A STEP with the display disabled: HBLANK is forced, STAT[1:0] cleared, the latch set, and nothing else happens
(40_step.md R112). -/
@[simps] def disabledStep (s : State) : State :=
  { s with mode := .hblank, stat := setModeBits s.stat .hblank, wasDisabled := true }

/-- The cycle count an enabled STEP adds to: 0 where the re-enable soft reset comes first (40_step.md R111, step 2). -/
def startCycles (s : State) : Nat := if s.wasDisabled then 0 else s.cycles.toNat

/-- The re-enable soft reset of the first enabled STEP after a disabled one (40_step.md R113). -/
def wake (s : State) : State :=
  if s.wasDisabled then { softReset s with wasDisabled := false } else s

/-- What the table of an enabled STEP looks at: soft reset if owed, then N added to the cycles (40_step.md R113, R116). -/
@[simps] def accumulate (n : BitVec 28) (s : State) : State :=
  { wake s with cycles := BitVec.ofNat 32 (startCycles s + n.toNat) }

/-- The gate of every STAT request of the STEP, from the state before its transition (40_step.md R114). -/
def statAllowed (s : State) : Bool := !anyStat s.stat s.mode

/-- OAM completion: the scan, then DRAW; no request (40_step.md R119). -/
@[simps] def completeOam (s : State) : State :=
  { oamScan s with mode := .draw }

/-- DRAW completion: the render, then HBLANK, then the HBlank request (40_step.md R120, R121). A render at LY >= 144 is the
block's one fault (42_bg_window.md R166). -/
def completeDraw (allowed : Bool) (s : State) : Host.Outcome State Fault Refusal :=
  if Config.frameHeight ≤ s.ly.toNat then .fault .renderOutsideFrame
  else .next (requestStatIf (hblInt s.stat && allowed) { renderLine s with mode := .hblank })

/-- HBLANK completion: LY moves on, mod 256 (40_step.md R122), to VBLANK at 144 with its requests (R123, R124), else to OAM
with its request (R125). -/
def completeHblank (allowed : Bool) (s : State) : State :=
  let ly := s.ly + 1
  if ly = 144 then
    requestStatIf (vblInt s.stat && allowed) (request .vblank { s with ly := ly, mode := .vblank })
  else
    requestStatIf (oamInt s.stat && allowed) { s with ly := ly, mode := .oamSearch }

/-- VBLANK line completion (40_step.md R126), or the wrap when the integer LY + 1 exceeds 153: publish, LY and the window
state to 0, OAM with its request (R127). -/
def completeVblank (allowed : Bool) (s : State) : State :=
  if s.ly.toNat + 1 > 153 then
    requestStatIf (oamInt s.stat && allowed)
      { publish s with ly := 0, winLine := 0, winFlag := false, mode := .oamSearch }
  else { s with ly := s.ly + 1 }

/-- `cycles <- cycles - d`: the remainder carries into the next mode (40_step.md R118). -/
@[simps] def payDuration (s : State) : State :=
  { s with cycles := BitVec.ofNat 32 (s.cycles.toNat - duration s.mode) }

/-- The table: at most one transition (40_step.md R117), when `cycles` has reached the mode's duration (R118). -/
def transition (allowed : Bool) (s : State) : Host.Outcome State Fault Refusal :=
  if s.cycles.toNat < duration s.mode then .next s
  else
    match s.mode with
    | .oamSearch => .next (completeOam (payDuration s))
    | .draw => completeDraw allowed (payDuration s)
    | .hblank => .next (completeHblank allowed (payDuration s))
    | .vblank => .next (completeVblank allowed (payDuration s))

/-- The LYC compare and its request (40_step.md R128, R129). -/
@[simps] def compareLyc (allowed : Bool) (s : State) : State :=
  { s with
    stat := setLycEq s.stat (s.ly == s.lyc)
    requests := (requestStatIf (lycRequestDue allowed s.stat s.ly s.lyc) s).requests }

/-- The window-flag test (40_step.md R130). -/
@[simps] def testWindowFlag (s : State) : State :=
  { s with winFlag := if s.wy = s.ly then true else s.winFlag }

/-- The mode bits, last of all (40_step.md R131). -/
@[simps] def forceModeBits (s : State) : State :=
  { s with stat := setModeBits s.stat s.mode }

/-- After the table: LYC compare, window-flag test, mode bits (40_step.md R132). -/
def afterTable (allowed : Bool) (s : State) : State :=
  forceModeBits (testWindowFlag (compareLyc allowed s))

/-- An enabled STEP past its overflow check: soft reset if owed, gate, accumulate, transition, and what follows the table
(40_step.md R132). -/
def enabledStep (n : BitVec 28) (s : State) : Host.Outcome State Fault Refusal :=
  let allowed := statAllowed (wake s)
  match transition allowed (accumulate n s) with
  | .next t => .next (afterTable allowed t)
  | .fault f => .fault f
  | .refused r => .refused r

/-- STEP N (40_step.md R110, R111). -/
def execStep (n : BitVec 28) (s : State) : Host.Outcome State Fault Refusal :=
  let quiet := clearOutputs s
  if lcdEn s.lcdc then
    if Config.cycleLimit ≤ startCycles s + n.toNat then .refused .cycleOverflow
    else enabledStep n quiet
  else .next (disabledStep quiet)

end Sys2Proof.Machine
end

