-- ==== Sys2Proof/Machine/Dispatch.lean ====
section
/-! DEFINITION. The meaning of each command (30_encoding.md R96, column "rule"). -/

namespace Sys2Proof.Machine

def exec (i : Instr) (s : State) : Host.Outcome State Fault Refusal :=
  match i with
  | .step n => Sys2Proof.Machine.execStep n s
  | .resetHard => Sys2Proof.Machine.execResetHard s
  | .resetSoft => Sys2Proof.Machine.execResetSoft s
  | .postBoot => Sys2Proof.Machine.execPostBoot s
  | .regRd addr => Sys2Proof.Machine.execRegRd addr s
  | .regWr addr data => Sys2Proof.Machine.execRegWr addr data s
  | .vramRd addr => Sys2Proof.Machine.execVramRd addr s
  | .vramWr addr data => Sys2Proof.Machine.execVramWr addr data s
  | .oamRd addr => Sys2Proof.Machine.execOamRd addr s
  | .oamWr addr data => Sys2Proof.Machine.execOamWr addr data s
  | .dma page => Sys2Proof.Machine.execDma page s
  | .frameRd idx => Sys2Proof.Machine.execFrameRd idx s

end Sys2Proof.Machine
end

