-- ==== Sys2Proof/Machine/Step.lean ====
section
/-! DEFINITION. One step of the block: it takes the next word from the command port, decodes it and performs it to
completion (10_state.md R45). The block has no program counter and fetches from no memory (R44). -/

namespace Sys2Proof.Machine

/-- The refusal a decode error becomes (60_exceptions.md R281). -/
def refusalOf : DecodeError → Refusal
  | .reservedOpcode => .reservedOpcode
  | .reservedField => .reservedField

/-- A step. With no word presented the block waits and no state changes (70_reset_and_hazards.md R310, 20_memory.md R76;
log 1). -/
def step (s : State) : Host.Outcome State Fault Refusal :=
  match s.commands with
  | [] => .next s
  | w :: rest =>
    match decode w with
    | .command i => exec i { s with commands := rest }
    | .refuse e => .refused (refusalOf e)

/-- The host presents a word ahead of any other: the next step runs it (log 2). -/
def State.withFetchWord (s : State) (nbits w : Nat) : State :=
  { s with commands := tableWord nbits w :: s.commands }

end Sys2Proof.Machine
end

