-- ==== Sys2Proof/Machine/Assembler.lean ====
section
/-! DEFINITION. The assembler forms and pseudo-instructions of 30_encoding.md R104 and R105, as abstract lines: the words
a line stands for, by the sums of R104. Characters, numerals and comments are outside the block (log 21). -/

namespace Sys2Proof.Machine

/-- A register operand: a name, or an address (30_encoding.md R104). -/
inductive RegOperand where
  | name (r : Reg)
  | addr (a : BitVec 16)
deriving DecidableEq, Repr

/-- `addr(r)` (30_encoding.md R104). -/
def RegOperand.address : RegOperand → BitVec 16
  | .name r => regAddr r
  | .addr a => a

/-- A line that stands for one command (30_encoding.md R104). -/
inductive AsmLine where
  | step (n : BitVec 28)
  | resetHard
  | resetSoft
  | postBoot
  | regRd (r : RegOperand)
  | regWr (r : RegOperand) (v : Byte)
  | vramRd (a : BitVec 16)
  | vramWr (a : BitVec 16) (v : Byte)
  | oamRd (a : BitVec 16)
  | oamWr (a : BitVec 16) (v : Byte)
  | dma (p : Byte)
  | frameRd (i : BitVec 17)
deriving DecidableEq, Repr

/-- The word of a line, by the sums of 30_encoding.md R104. -/
def AsmLine.word : AsmLine → Word
  | .step n => 0x10000000 + n.setWidth 32
  | .resetHard => 0x20000001
  | .resetSoft => 0x20000000
  | .postBoot => 0x30000000
  | .regRd r => 0x40000000 + (r.address.setWidth 32 <<< 8)
  | .regWr r v => 0x50000000 + (r.address.setWidth 32 <<< 8) + v.setWidth 32
  | .vramRd a => 0x60000000 + (a.setWidth 32 <<< 8)
  | .vramWr a v => 0x70000000 + (a.setWidth 32 <<< 8) + v.setWidth 32
  | .oamRd a => 0x80000000 + (a.setWidth 32 <<< 8)
  | .oamWr a v => 0x90000000 + (a.setWidth 32 <<< 8) + v.setWidth 32
  | .dma p => 0xA0000000 + p.setWidth 32
  | .frameRd i => 0xB0000000 + i.setWidth 32

/-- The command of a line. -/
def AsmLine.command : AsmLine → Instr
  | .step n => .step n
  | .resetHard => .resetHard
  | .resetSoft => .resetSoft
  | .postBoot => .postBoot
  | .regRd r => .regRd r.address
  | .regWr r v => .regWr r.address v
  | .vramRd a => .vramRd a
  | .vramWr a v => .vramWr a v
  | .oamRd a => .oamRd a
  | .oamWr a v => .oamWr a v
  | .dma p => .dma p
  | .frameRd i => .frameRd i

/-- A line of a program: a command, or a pseudo-instruction (30_encoding.md R105). -/
inductive ProgramLine where
  | command (l : AsmLine)
  | sync
  | stepLine
  | stepVline
  | oamEntry (i : Fin 40) (y x t a : Byte)
deriving DecidableEq, Repr

/-- The OAM bus address of byte `k` of entry `i` in the bare-offset form: `4i + k` (30_encoding.md R105). -/
def oamEntryByte (i : Fin 40) (k : Nat) : BitVec 16 := BitVec.ofNat 16 (4 * i.val + k)

/-- The lines a program line stands for (30_encoding.md R105). -/
def ProgramLine.expand : ProgramLine → List AsmLine
  | .command l => [l]
  | .sync => [.step 0]
  | .stepLine => [.step 80, .step 172, .step 204]
  | .stepVline => [.step 456]
  | .oamEntry i y x t a =>
    [.oamWr (oamEntryByte i 0) y, .oamWr (oamEntryByte i 1) x,
     .oamWr (oamEntryByte i 2) t, .oamWr (oamEntryByte i 3) a]

/-- `REPEAT k` of a body: the assembler's macro, of which the block sees only the copies (30_encoding.md R105). -/
def repeatLines (k : Nat) (body : List ProgramLine) : List ProgramLine := (List.replicate k body).flatten

/-- The words of a program, in order. -/
def assemble (program : List ProgramLine) : List Word :=
  (program.flatMap ProgramLine.expand).map AsmLine.word

end Sys2Proof.Machine
end

