-- ==== Sys2Proof/Machine/PixelLoop.lean ====
section
/-! DEFINITION. The three passes of a line render as the spec writes them: loops that write SHADOW and WORK one element at
a time (42_bg_window.md R167, R176, 43_sprites.md R200). `renderLine` is the model's render; the claim that it equals
`renderLineLoop` is an obligation (log 16). -/

namespace Sys2Proof.Machine

/-- `PutPixel(px, ly, c)`: four `MemWrite`s into WORK (42_bg_window.md R173). -/
def putPixel (px : Nat) (ly : Byte) (c : Colour) (s : State) : State :=
  let k := 4 * (160 * ly.toNat + px)
  { s with
    work := memWrite (memWrite (memWrite (memWrite s.work k c.r) (k + 1) c.g) (k + 2) c.b) (k + 3) c.a }

/-- `MemWrite(SHADOW, 160 * ly + px, 1, ci)` (42_bg_window.md R174). -/
def putShadow (px : Nat) (ly : Byte) (ci : ColourIndex) (s : State) : State :=
  { s with shadow := memWrite s.shadow (160 * ly.toNat + px) ci }

/-- The body of the background loop (42_bg_window.md R167). -/
def backgroundBody (s : State) (px : Nat) : State :=
  let ci := bgIndex s px
  putPixel px s.ly (colourAt s.params.colorTable (shadeOf s.bgp ci)) (putShadow px s.ly ci s)

/-- RenderBG (42_bg_window.md R167). -/
def renderBackgroundLoop (s : State) : State := (List.range 160).foldl backgroundBody s

/-- The body of the window loop, with its `drawn` (42_bg_window.md R176). -/
def windowBody (acc : State × Bool) (px : Nat) : State × Bool :=
  let s := acc.1
  if isWindowPixel s px then
    let ci := windowIndex s px
    (putPixel px s.ly (colourAt s.params.colorTable (shadeOf s.bgp ci)) (putShadow px s.ly ci s), true)
  else acc

/-- RenderWindow (42_bg_window.md R176). -/
def renderWindowLoop (s : State) : State :=
  if windowRuns s then
    let acc := (List.range 160).foldl windowBody (s, false)
    if acc.2 then { acc.1 with winLine := acc.1.winLine + 1 } else acc.1
  else s

/-- The body of the sprite column loop (43_sprites.md R200): the three `continue`s, then the write. -/
def spriteBody (e : SelEntry) (s : State) (col : Nat) : State :=
  let sx : Int := (e.x.toNat : Int) - 8 + col
  if sx < 0 ∨ 160 ≤ sx then s
  else
    let ci := rowPixel s.vram (16 * spriteTile s.lcdc e + 2 * spriteRow s e) (if attrXFlip e.attr then col else 7 - col)
    if ci = 0 then s
    else if attrPrio e.attr ∧ memRead s.shadow (160 * s.ly.toNat + sx.toNat) ≠ 0 then s
    else putPixel sx.toNat s.ly (colourAt s.params.colorTable (shadeOf (spritePalette s e) ci)) s

/-- RenderSprites: the selection from its last element to its first (43_sprites.md R200, R201). -/
def renderSpritesLoop (s : State) : State :=
  if spritesRun s then
    s.sel.reverse.foldl (fun t e => (List.range 8).foldl (spriteBody e) t) s
  else s

/-- RenderLine as three loops (42_bg_window.md R165). -/
def renderLineLoop (s : State) : State :=
  renderSpritesLoop (renderWindowLoop (renderBackgroundLoop s))

end Sys2Proof.Machine
end

