-- ==== Sys2Proof/Safety.lean ====
section
/-! DEFINITION. What counts as a good state and a safe run, in the terms the claims use. -/

namespace Sys2Proof.Machine

/-- STAT.MODE mirrors the mode (10_state.md R26). -/
def ModeMirrored (s : State) : Prop := statMode s.stat = modeCode s.mode

/-- POST_BOOT_MODE is the mode POST_BOOT.STAT encodes, its default (00_scope.md R8, 45_control.md R265). -/
def ParamsMirrored (p : Params) : Prop := statMode p.postBoot.stat = modeCode p.postBootMode

/-- Every memory space has its canonical form (20_memory.md R60). -/
structure SpacesCanonical (s : State) : Prop where
  vram    : Memory.wf Config.vramSize s.vram
  oam     : Memory.wf Config.oamSize s.oam
  work    : Memory.wf Config.frameSize s.work
  doneBuf : Memory.wf Config.frameSize s.doneBuf
  shadow  : Memory.wf Config.shadowSize s.shadow

/-- `e` has the higher priority: lower x, or equal x and lower table index (41_oam_scan.md R154). -/
def Precedes (e f : SelEntry) : Prop :=
  e.x.toNat < f.x.toNat ∨ (e.x.toNat = f.x.toNat ∧ e.index < f.index)

/-- The selection holds at most 10 elements in priority order, no index twice (10_state.md R40, 41_oam_scan.md R154). -/
structure SelOrdered (sel : List SelEntry) : Prop where
  bounded : sel.length ≤ Config.selLimit
  ordered : sel.Pairwise Precedes

/-- The invariant every command keeps. -/
structure Inv (s : State) : Prop where
  mode   : ModeMirrored s
  params : ParamsMirrored s.params
  spaces : SpacesCanonical s
  sel    : SelOrdered s.sel

/-- The post-boot parameters name a line inside the frame (45_control.md R265). -/
structure PostBootInFrame (p : Params) : Prop where
  line   : p.postBoot.ly.toNat ≤ 153
  active : p.postBootMode ≠ .vblank → p.postBoot.ly.toNat ≤ 143

/-- The machine's line is inside the frame: LY in 0..153 (10_state.md R28), and in 0..143 wherever a scan, a render or the
HBlank after one is due (42_bg_window.md R166). A display that is off may rest at any line, in HBLANK. -/
structure InFrame (s : State) : Prop where
  line   : s.ly.toNat ≤ 153
  active : s.mode = .oamSearch ∨ s.mode = .draw → s.ly.toNat ≤ 143
  hblank : s.mode = .hblank → s.wasDisabled = false → s.ly.toNat ≤ 143
  params : PostBootInFrame s.params

/-- The window line counter has used at most one row for each line rendered in this frame (42_bg_window.md R183). -/
structure WindowBounded (s : State) : Prop where
  inFrame : InFrame s
  bound   : s.winLine.toNat ≤ 144
  active  : s.wasDisabled = false → s.mode = .oamSearch ∨ s.mode = .draw → s.winLine.toNat ≤ s.ly.toNat
  hblank  : s.wasDisabled = false → s.mode = .hblank → s.winLine.toNat ≤ s.ly.toNat + 1
  params  : s.params.postBootMode = .vblank

/-- The cycle counter is below the current mode's duration, as under the step discipline of 70_reset_and_hazards.md R316. -/
def BelowDuration (s : State) : Prop := s.cycles.toNat < duration s.mode

/-- The display runs: enabled, and no re-enable soft reset owed. -/
def Running (s : State) : Prop := lcdEn s.lcdc = true ∧ s.wasDisabled = false

/-- Commands performed one after another, stopping at the first fault or refusal. -/
def execAll : List Instr → State → Host.Outcome State Fault Refusal
  | [], s => .next s
  | i :: rest, s =>
    match exec i s with
    | .next t => execAll rest t
    | .fault f => .fault f
    | .refused r => .refused r

/-- The STEPs of one visible line (40_step.md R135, `STEP.LINE` of 30_encoding.md R105). -/
def visibleLineSteps : List Instr := [.step 80, .step 172, .step 204]

/-- The STEPs of one frame: 144 visible lines and 10 VBlank lines, 70224 cycles (40_step.md R135). -/
def frameSteps : List Instr :=
  (List.replicate 144 visibleLineSteps).flatten ++ List.replicate 10 (.step 456)

/-! ### The spec's arithmetic on plain numbers, for the claims about pixels, the scan and the requests -/

/-- No STAT condition holds: the gate of the next STEP is open (40_step.md R114, R115). -/
def gateOpen (s : State) : Bool :=
  !((lycInt s.stat && lycEq s.stat) || (oamInt s.stat && s.mode == .oamSearch)
    || (vblInt s.stat && s.mode == .vblank) || (hblInt s.stat && s.mode == .hblank))

/-- `[STAT]` when the request's enable is set and the gate is open, else nothing (60_exceptions.md R283). -/
def statRequest (s : State) (enable : Bool) : List Irq :=
  if enable && gateOpen s then [.stat] else []

/-- The LYC request of a STEP from `s` that leaves LY = `ly`, as 40_step.md R134 puts it. -/
def lycRequest (s : State) (ly : Byte) : List Irq :=
  statRequest s (ly == s.lyc && lycInt s.stat)

/-- The colour index at pixel (x, y) of the tile map at `m`, by the sums of 20_memory.md R63 to R66: a signed identifier
`id` of 128 or more has its tile at `0x1000 + 16 * (id - 256) = 16 * id`. -/
def tileIndexAt (vram : Memory 8) (isUnsigned : Bool) (m x y : Nat) : Nat :=
  let id := (memRead vram (m + 32 * (y / 8 % 32) + x / 8 % 32)).toNat
  let ta := (if isUnsigned || 128 ≤ id then 16 * id else 4096 + 16 * id) + 2 * (y % 8)
  (memRead vram ta).toNat / 2 ^ (7 - x % 8) % 2 + 2 * ((memRead vram (ta + 1)).toNat / 2 ^ (7 - x % 8) % 2)

/-- Pixel `px` of line LY is a window pixel that is drawn (42_bg_window.md R176, R177), with `px >= WX - 7` as
`WX <= px + 7`. -/
def windowShows (s : State) (px : Nat) : Bool :=
  winEn s.lcdc && s.winFlag && s.params.layerWin && s.wy.toNat ≤ s.ly.toNat && s.wx.toNat ≤ px + 7

/-- What SHADOW holds at column `px` of a line rendered in `s` (42_bg_window.md R167 to R180). -/
def shadowIndexAt (s : State) (px : Nat) : Nat :=
  if windowShows s px then
    tileIndexAt s.vram (tileSel s.lcdc) (if winMap s.lcdc then 0x1C00 else 0x1800) (px + 7 - s.wx.toNat) s.winLine.toNat
  else if bgEn s.lcdc && s.params.layerBg then
    tileIndexAt s.vram (tileSel s.lcdc) (if bgMap s.lcdc then 0x1C00 else 0x1800)
      ((s.scx.toNat + px) % 256) ((s.scy.toNat + s.ly.toNat) % 256)
  else 0

/-- `Shade(P, ci)` on plain numbers (42_bg_window.md R172). -/
def shadeNumber (p : Byte) (ci : Nat) : Nat := p.toNat / 4 ^ ci % 4

/-- Byte `c` (0 R, 1 G, 2 B, 3 A) of `COLOR_TABLE[shade]` (42_bg_window.md R173). -/
def colourByte (t : ColorTable) (shade c : Nat) : Byte :=
  let colour := if shade = 0 then t.shade0 else if shade = 1 then t.shade1 else if shade = 2 then t.shade2 else t.shade3
  if c = 0 then colour.r else if c = 1 then colour.g else if c = 2 then colour.b else colour.a

/-- The sprite row of element `e` on line LY, before the mirror: `(LY - (y - 16)) mod h` (43_sprites.md R203). -/
def spriteRowNumber (s : State) (e : SelEntry) (h : Nat) : Nat :=
  (((s.ly.toNat : Int) + 16 - e.y.toNat) % (h : Int)).toNat

/-- The colour index of element `e` at a column `px` it covers, by the sums of 43_sprites.md R202 to R207. -/
def spriteIndexAt (s : State) (e : SelEntry) (px : Nat) : Nat :=
  let h := if objSize s.lcdc then 16 else 8
  let tile := if objSize s.lcdc then e.tile.toNat / 2 * 2 else e.tile.toNat
  let row := if attrYFlip e.attr then h - 1 - spriteRowNumber s e h else spriteRowNumber s e h
  let col := px + 8 - e.x.toNat
  let b := if attrXFlip e.attr then col else 7 - col
  let ta := 16 * tile + 2 * row
  (memRead s.vram ta).toNat / 2 ^ b % 2 + 2 * ((memRead s.vram (ta + 1)).toNat / 2 ^ b % 2)

/-- Element `e` draws at column `px`: one of its 8 columns lands there (43_sprites.md R205), the pixel is not transparent
(R208), and the background-priority test passes (R210). -/
def spriteShows (s : State) (px : Nat) (e : SelEntry) : Bool :=
  e.x.toNat ≤ px + 8 && px + 8 < e.x.toNat + 8 && spriteIndexAt s e px ≠ 0
    && (!attrPrio e.attr || shadowIndexAt s px = 0)

/-- The shade WORK shows at column `px`: that of the first element of `sel` that draws there, through its own palette, else
that of the background or window (43_sprites.md R201, R209, R212). -/
def shadeShownAt (s : State) (px : Nat) : Nat :=
  match if objEn s.lcdc && s.params.layerObj then s.sel.find? (spriteShows s px) else none with
  | some e => shadeNumber (if attrPal e.attr then s.obp1 else s.obp0) (spriteIndexAt s e px)
  | none => shadeNumber s.bgp (shadowIndexAt s px)

/-- OAM entry `i` is visible on line LY: `y - 16 <= LY < y - 16 + h`, as `y <= LY + 16 < y + h` (41_oam_scan.md R152). -/
def entryVisible (s : State) (i : Nat) : Bool :=
  (memRead s.oam (4 * i)).toNat ≤ s.ly.toNat + 16
    && s.ly.toNat + 16 < (memRead s.oam (4 * i)).toNat + (if objSize s.lcdc then 16 else 8)

end Sys2Proof.Machine
end

