-- ==== Sys2Proof/Certificates/Slice0/Obligations.lean ====
section
/-! DEFINITION. The statements for the provers. Each docstring names the rule or section of spec/ it formalises. -/

open Sys2Proof Sys2Proof.Machine

/-- 30_encoding.md section 4, 44_access.md, the rules' examples, 92_eei_decisions.md D2. The words the spec writes out decode to the commands they stand for (encoding: the spec's own choice D2, log 19). -/
def Obligations.DecodesSpecWords : Prop :=
  decode 0x100001C8 = .command (.step 456) ∧
  decode 0x20000001 = .command .resetHard ∧
  decode 0x20000000 = .command .resetSoft ∧
  decode 0x30000000 = .command .postBoot ∧
  decode 0x40FF4100 = .command (.regRd 0xFF41) ∧
  decode 0x50FF4091 = .command (.regWr 0xFF40 0x91) ∧
  decode 0x6000FF00 = .command (.vramRd 0x00FF) ∧
  decode 0x708010F0 = .command (.vramWr 0x8010 0xF0) ∧
  decode 0x80FE9F00 = .command (.oamRd 0xFE9F) ∧
  decode 0x90FE9F33 = .command (.oamWr 0xFE9F 0x33) ∧
  decode 0xA0000012 = .command (.dma 0x12) ∧
  decode 0xB00167FF = .command (.frameRd 92159)

/-- 30_encoding.md sections 1 and 2, 92_eei_decisions.md D2. Decoding the word of any command gives the command back (encoding: the spec's own choice D2, log 19). -/
def Obligations.DecodeOfEncode : Prop :=
  ∀ i : Instr, decode (encode i) = .command i

/-- 30_encoding.md sections 1 and 2, 92_eei_decisions.md D2. A word that decodes is the word of the command it decodes to: every bit of it is read (encoding: D2, log 19). -/
def Obligations.EncodeOfDecode : Prop :=
  ∀ (w : Word) (i : Instr), decode w = .command i → encode i = w

/-- 30_encoding.md section 2, 92_eei_decisions.md D2. A word matches at most one row of the opcode map (encoding: D2, log 19). -/
def Obligations.OpcodeRowsDisjoint : Prop :=
  ∀ (w : Word), ∀ p ∈ opcodeMap, ∀ q ∈ opcodeMap,
    rowMatches w p = true → rowMatches w q = true → p.mnemonic = q.mnemonic

/-- 30_encoding.md section 3, 60_exceptions.md section 1, 92_eei_decisions.md D3. Which words decode refuses, and by which name (refusing: the spec's own decision D3, log 14). -/
def Obligations.ReservedWordsRefusedByName : Prop :=
  ∀ w : Word,
    let op := w.toNat / 2 ^ 28
    let top4 := w.toNat / 2 ^ 24 % 16
    (decode w = .refuse .reservedOpcode ↔ op = 0 ∨ 12 ≤ op) ∧
    (decode w = .refuse .reservedField ↔
      (op = 2 ∧ w.toNat / 2 % 2 ^ 27 ≠ 0) ∨
      (op = 3 ∧ w.toNat % 2 ^ 28 ≠ 0) ∨
      ((op = 4 ∨ op = 6 ∨ op = 8) ∧ (top4 ≠ 0 ∨ w.toNat % 256 ≠ 0)) ∨
      ((op = 5 ∨ op = 7 ∨ op = 9) ∧ top4 ≠ 0) ∨
      (op = 10 ∧ w.toNat / 2 ^ 8 % 2 ^ 20 ≠ 0) ∨
      (op = 11 ∧ w.toNat / 2 ^ 17 % 2 ^ 11 ≠ 0)) ∧
    (∀ (s : State) (rest : List Word), s.commands = w :: rest →
      (decode w = .refuse .reservedOpcode → step s = .refused .reservedOpcode) ∧
      (decode w = .refuse .reservedField → step s = .refused .reservedField))

/-- 30_encoding.md section 4, 92_eei_decisions.md D44. The sum each assembler form stands for is the word of its command (forms: the spec's own choice D44, log 21). -/
def Obligations.AssemblerFormsEncode : Prop :=
  ∀ l : AsmLine, l.word = encode l.command

/-- 10_state.md section 3, 70_reset_and_hazards.md section 1, 20_memory.md section 3. A step performs the next command word; with none presented it changes nothing (the command stream is the model's reading, logs 1 and 2). -/
def Obligations.StepRunsNextCommand : Prop :=
  (∀ (s : State) (w : Word) (rest : List Word) (i : Instr), s.commands = w :: rest → decode w = .command i →
      step s = exec i { s with commands := rest }) ∧
  (∀ s : State, s.commands = [] → step s = .next s) ∧
  (∀ (s : State) (nbits w : Nat) (i : Instr), decodeTableWord nbits w = some i →
      step (s.withFetchWord nbits w) = exec i s)

/-- 30_encoding.md section 3, 60_exceptions.md section 1, 92_eei_decisions.md D3, 92_eei_decisions.md D30, 92_eei_decisions.md D32. When a command is refused, and by which name (refusing: the spec's own decisions D3, D30, D32, log 14). -/
def Obligations.RefusedExactlyOutsideContract : Prop :=
  ∀ (i : Instr) (s : State) (r : Refusal), exec i s = .refused r ↔
    (r = .noRegister ∧ ∃ a, ((i = .regRd a) ∨ ∃ v, i = .regWr a v) ∧
      (a.toNat % 256 < 0x40 ∨ 0x4B < a.toNat % 256 ∨ a.toNat % 256 = 0x46)) ∨
    (r = .outsideOam ∧ ∃ a, ((i = .oamRd a) ∨ ∃ v, i = .oamWr a v) ∧ 160 ≤ a.toNat % 256) ∨
    (r = .outsideFrame ∧ ∃ k, i = .frameRd k ∧ 92160 ≤ k.toNat) ∨
    (r = .cycleOverflow ∧ ∃ n, i = .step n ∧ lcdEn s.lcdc = true ∧
      2 ^ 32 ≤ (if s.wasDisabled then 0 else s.cycles.toNat) + n.toNat)

/-- 42_bg_window.md section 1, 60_exceptions.md section 1, 92_eei_decisions.md D34. The one fault: a STEP that would render a line at LY 144 or more (the spec's own choice D34). -/
def Obligations.FaultsExactlyOnRenderOutsideFrame : Prop :=
  ∀ (i : Instr) (s : State) (f : Fault), exec i s = .fault f ↔
    f = .renderOutsideFrame ∧ ∃ n, i = .step n ∧ Running s ∧ s.mode = .draw ∧
      172 ≤ s.cycles.toNat + n.toNat ∧ s.cycles.toNat + n.toNat < 2 ^ 32 ∧ 144 ≤ s.ly.toNat

/-- 30_encoding.md section 3, 60_exceptions.md section 1. Every command inside its contract answers a next state. -/
def Obligations.WellFormedCommandsComplete : Prop :=
  ∀ (i : Instr) (s : State), i.wellFormed = true →
    (∀ n, i = .step n → lcdEn s.lcdc = false ∨
      ((if s.wasDisabled then 0 else s.cycles.toNat) + n.toNat < 2 ^ 32 ∧
        (s.wasDisabled = true ∨ s.mode ≠ .draw ∨ s.cycles.toNat + n.toNat < 172 ∨ s.ly.toNat < 144))) →
    ∃ t, exec i s = .next t

/-- 45_control.md section RESET.HARD, 70_reset_and_hazards.md section 1, 92_eei_decisions.md D37. RESET.HARD puts every element of the block at its reset value (was_disabled, sel, cycles, win_flag, SHADOW: the spec's own choice D37, log 12). -/
def Obligations.HardResetClearsBlock : Prop :=
  ∀ s : State, exec .resetHard s =
    .next { State.reset with commands := s.commands, params := s.params, busReads := s.busReads }

/-- 45_control.md R260, 44_access.md R235. After RESET.HARD every REG_RD, VRAM_RD, OAM_RD and FRAME_RD responds 0x00. -/
def Obligations.EverythingReadsZeroAfterHardReset : Prop :=
  ∀ s : State, ∃ t, exec .resetHard s = .next t ∧
    ∀ i : Instr, i.wellFormed = true →
      ((∃ a, i = .regRd a) ∨ (∃ a, i = .vramRd a) ∨ (∃ a, i = .oamRd a) ∨ (∃ k, i = .frameRd k)) →
      exec i t = .next { t with response := some 0 }

/-- 45_control.md R262, 45_control.md R263, 90_conflicts.md C1, 92_eei_decisions.md D38. RESET.SOFT clears cycles, LY, win_flag and win_line and nothing else (nothing else: D38; win_flag: C1; log 18). -/
def Obligations.SoftResetClearsFourCounters : Prop :=
  ∀ s : State, exec .resetSoft s =
    .next { s with cycles := 0, ly := 0, winFlag := false, winLine := 0, response := none, requests := [] }

/-- 45_control.md section POST_BOOT, 92_eei_decisions.md D35, 92_eei_decisions.md D36. POST_BOOT loads the eleven registers and the mode from its parameters and changes nothing else (D35, D36; defaults: logs 7 and 8). -/
def Obligations.PostBootLoadsParameters : Prop :=
  (∀ s : State, exec .postBoot s = .next { s with
      lcdc := s.params.postBoot.lcdc, stat := s.params.postBoot.stat, scy := s.params.postBoot.scy,
      scx := s.params.postBoot.scx, ly := s.params.postBoot.ly, lyc := s.params.postBoot.lyc,
      bgp := s.params.postBoot.bgp, obp0 := s.params.postBoot.obp0, obp1 := s.params.postBoot.obp1,
      wy := s.params.postBoot.wy, wx := s.params.postBoot.wx, mode := s.params.postBootMode,
      response := none, requests := [] }) ∧
  exec .postBoot State.reset = .next { State.reset with
      lcdc := 0x91, stat := 0x85, bgp := 0xFC, obp0 := 0xFF, obp1 := 0xFF, mode := .vblank }

/-- 44_access.md R225, 92_eei_decisions.md D4, 92_eei_decisions.md D30. REG_RD responds the stored byte of the register its low address byte names and changes nothing else (addresses: D4, log 17). -/
def Obligations.RegReadRespondsStoredByte : Prop :=
  ∀ (s : State) (r : Reg) (a : BitVec 16), a.toNat % 256 = (regAddr r).toNat % 256 →
    exec (.regRd a) s = .next { s with response := some (readReg s r), requests := [] }

/-- 44_access.md R226, 44_access.md R229, 92_eei_decisions.md D4. REG_WR to any register but STAT and LY stores the byte whole and changes nothing else (addresses: D4, log 17). -/
def Obligations.RegWriteStoresWholeByte : Prop :=
  ∀ (s : State) (r : Reg) (a : BitVec 16) (v : Byte), a.toNat % 256 = (regAddr r).toNat % 256 → r ≠ .stat → r ≠ .ly →
    ∃ t, exec (.regWr a v) s = .next t ∧ readReg t r = v ∧ (∀ q, q ≠ r → readReg t q = readReg s q) ∧
      t.response = none ∧ t.requests = [] ∧
      { t with lcdc := s.lcdc, stat := s.stat, scy := s.scy, scx := s.scx, ly := s.ly, lyc := s.lyc, bgp := s.bgp,
               obp0 := s.obp0, obp1 := s.obp1, wy := s.wy, wx := s.wx,
               response := s.response, requests := s.requests } = s

/-- 10_state.md R25, 44_access.md R227, 92_eei_decisions.md D7. REG_WR to STAT stores bits 7..2, keeps bits 1..0, requests nothing, and changes nothing else (the spec's own choice D7, log 18). -/
def Obligations.RegWriteStatKeepsModeBits : Prop :=
  ∀ (s : State) (a : BitVec 16) (v : Byte), a.toNat % 256 = 0x41 →
    ∃ t, exec (.regWr a v) s = .next t ∧
      (∀ k, t.stat.getLsbD k = if k < 2 then s.stat.getLsbD k else v.getLsbD k) ∧
      t.response = none ∧ t.requests = [] ∧
      { t with stat := s.stat, response := s.response, requests := s.requests } = s

/-- 44_access.md R228, 92_eei_decisions.md D8. REG_WR to LY changes nothing (the spec's own choice D8, log 18). -/
def Obligations.RegWriteLyChangesNothing : Prop :=
  ∀ (s : State) (a : BitVec 16) (v : Byte), a.toNat % 256 = 0x44 →
    exec (.regWr a v) s = .next { s with response := none, requests := [] }

/-- 44_access.md R230, 20_memory.md R61, 92_eei_decisions.md D29. VRAM_RD responds the byte at ADDR mod 8192, in every mode, and changes nothing else (masking: D29, log 18). -/
def Obligations.VramReadRespondsMaskedByte : Prop :=
  ∀ (s : State) (a : BitVec 16),
    exec (.vramRd a) s = .next { s with response := some (memRead s.vram (a.toNat % 8192)), requests := [] }

/-- 44_access.md R231, 20_memory.md R73, 92_eei_decisions.md D29. VRAM_WR changes the byte at ADDR mod 8192 and no other byte, in every mode (masking: D29, log 18). -/
def Obligations.VramWriteChangesOneByte : Prop :=
  ∀ (s : State) (a : BitVec 16) (v : Byte), ∃ t, exec (.vramWr a v) s = .next t ∧
    (∀ k, memRead t.vram k = if k = a.toNat % 8192 then v else memRead s.vram k) ∧
    t.response = none ∧ t.requests = [] ∧
    { t with vram := s.vram, response := s.response, requests := s.requests } = s

/-- 44_access.md R232, 92_eei_decisions.md D29. OAM_RD responds the byte at ADDR[7:0] below 160, in every mode, and changes nothing else (offset: D29, log 18). -/
def Obligations.OamReadRespondsByte : Prop :=
  ∀ (s : State) (a : BitVec 16), a.toNat % 256 < 160 →
    exec (.oamRd a) s = .next { s with response := some (memRead s.oam (a.toNat % 256)), requests := [] }

/-- 44_access.md R233, 20_memory.md R73, 92_eei_decisions.md D29. OAM_WR changes the byte at ADDR[7:0] below 160 and no other byte, in every mode (offset: D29, log 18). -/
def Obligations.OamWriteChangesOneByte : Prop :=
  ∀ (s : State) (a : BitVec 16) (v : Byte), a.toNat % 256 < 160 → ∃ t, exec (.oamWr a v) s = .next t ∧
    (∀ k, memRead t.oam k = if k = a.toNat % 256 then v else memRead s.oam k) ∧
    t.response = none ∧ t.requests = [] ∧
    { t with oam := s.oam, response := s.response, requests := s.requests } = s

/-- 44_access.md R234, 10_state.md R47, 92_eei_decisions.md D31. DMA fills the 160 bytes of OAM with the bus's answers at PAGE * 256 + i (D31; the oracle: logs 9 and 20). -/
def Obligations.DmaFillsObjectTable : Prop :=
  ∀ (s : State) (p : Byte), ∃ t, exec (.dma p) s = .next t ∧
    (∀ i, i < 160 → memRead t.oam i = busAnswer s i (p.toNat * 256 + i)) ∧
    (∀ i v, i < 160 → s.params.bus.find? (fun c => c.1 == p.toNat * 256 + i) = some (p.toNat * 256 + i, v) →
      memRead t.oam i = v) ∧
    (∀ k, 160 ≤ k → memRead t.oam k = memRead s.oam k) ∧
    t.busReads = s.busReads + 160 ∧ t.response = none ∧ t.requests = [] ∧
    { t with oam := s.oam, busReads := s.busReads, response := s.response, requests := s.requests } = s

/-- 44_access.md R235, 20_memory.md R69, 92_eei_decisions.md D27. FRAME_RD responds channel c of a pixel of the published frame and changes nothing else (layout: D27, log 17). -/
def Obligations.FrameReadRespondsDoneByte : Prop :=
  ∀ (s : State) (k : BitVec 17) (line px c : Nat), line < 144 → px < 160 → c < 4 →
    k.toNat = 4 * (160 * line + px) + c →
    exec (.frameRd k) s =
      .next { s with response := some (memRead s.doneBuf (4 * (160 * line + px) + c)), requests := [] }

/-- 20_memory.md R73, 44_access.md R236, 92_eei_decisions.md D49. No read has a side effect, and repeating one responds the same byte (D49, log 18). -/
def Obligations.ReadsChangeOnlyThePorts : Prop :=
  ∀ (i : Instr) (s t : State),
    ((∃ a, i = .regRd a) ∨ (∃ a, i = .vramRd a) ∨ (∃ a, i = .oamRd a) ∨ (∃ k, i = .frameRd k)) →
    exec i s = .next t →
    t.response.isSome = true ∧ t.requests = [] ∧
    { t with response := s.response, requests := s.requests } = s ∧ exec i t = .next t

/-- 44_access.md R236. No access command touches the timing state, the selection, or a frame buffer, and none requests an interrupt. -/
def Obligations.AccessCommandsKeepTheClock : Prop :=
  ∀ (i : Instr) (s t : State), (∀ n, i ≠ .step n) → i ≠ .resetHard → i ≠ .resetSoft → i ≠ .postBoot →
    exec i s = .next t →
    t.mode = s.mode ∧ t.cycles = s.cycles ∧ t.ly = s.ly ∧ t.wasDisabled = s.wasDisabled ∧ t.winFlag = s.winFlag ∧
    t.winLine = s.winLine ∧ t.sel = s.sel ∧ t.work = s.work ∧ t.shadow = s.shadow ∧ t.doneBuf = s.doneBuf ∧
    t.requests = []

/-- R43. VRAM and OAM are written only by VRAM_WR, OAM_WR, DMA and RESET.HARD. -/
def Obligations.VideoMemoryWritersAreTheHosts : Prop :=
  ∀ (i : Instr) (s t : State), exec i s = .next t →
    (t.vram ≠ s.vram → (∃ a v, i = .vramWr a v) ∨ i = .resetHard) ∧
    (t.oam ≠ s.oam → (∃ a v, i = .oamWr a v) ∨ (∃ p, i = .dma p) ∨ i = .resetHard)

/-- R82. DONE changes only at the VBlank wrap, as a whole copy of WORK, and at RESET.HARD. -/
def Obligations.DoneChangesOnlyAtPublishOrHardReset : Prop :=
  ∀ (i : Instr) (s t : State), exec i s = .next t →
    t.doneBuf = s.doneBuf ∨
    (i = .resetHard ∧ t.doneBuf = []) ∨
    ((∃ n, i = .step n) ∧ lcdEn s.lcdc = true ∧ s.mode = .vblank ∧ t.mode = .oamSearch ∧
      t.doneBuf = s.work ∧ t.work = s.work)

/-- 10_state.md R48, 10_state.md R50, 92_eei_decisions.md D40. No command writes a parameter of the step relation or the commands still to come (held in State: logs 1 and 4). -/
def Obligations.ParametersAndCommandsAreNeverWritten : Prop :=
  ∀ (i : Instr) (s t : State), exec i s = .next t →
    t.params = s.params ∧ t.commands = s.commands ∧ ((∀ p, i ≠ .dma p) → t.busReads = s.busReads)

/-- 60_exceptions.md R298, 40_step.md R112, 40_step.md R113, 92_eei_decisions.md D19, 92_eei_decisions.md D20. A STEP with the display off holds HBLANK and advances nothing; the first one after it soft-resets and goes on (D19, D20, log 18). -/
def Obligations.DisplayOffHoldsAndWakes : Prop :=
  (∀ (s : State) (n : BitVec 28), lcdEn s.lcdc = false →
      exec (.step n) s = .next { s with
        mode := .hblank, stat := s.stat &&& 0xFC, wasDisabled := true, response := none, requests := [] }) ∧
  (∀ (s : State) (n : BitVec 28), lcdEn s.lcdc = true → s.wasDisabled = true →
      exec (.step n) s =
        exec (.step n) { s with cycles := 0, ly := 0, winFlag := false, winLine := 0, wasDisabled := false })

/-- 40_step.md R118, 40_step.md R136, 92_eei_decisions.md D17, 92_eei_decisions.md D18. A STEP that stays below the mode's duration adds its cycles and makes no transition (D17, D18, log 18). -/
def Obligations.BelowThresholdOnlyCounts : Prop :=
  ∀ (s : State) (n : BitVec 28), Running s → s.cycles.toNat + n.toNat < duration s.mode →
    ∃ t, exec (.step n) s = .next t ∧ t.cycles.toNat = s.cycles.toNat + n.toNat ∧
      t.requests = lycRequest s s.ly ∧ t.response = none ∧
      { t with cycles := s.cycles, stat := s.stat, winFlag := s.winFlag,
               response := s.response, requests := s.requests } = s

/-- R119. OAM completion: subtract 80, scan for the current LY, enter DRAW, request nothing of its own. -/
def Obligations.OamCompletionScansAndDraws : Prop :=
  ∀ (s : State) (n : BitVec 28), Running s → s.mode = .oamSearch → 80 ≤ s.cycles.toNat + n.toNat →
    s.cycles.toNat + n.toNat < 2 ^ 32 →
    ∃ t, exec (.step n) s = .next t ∧ t.mode = .draw ∧ t.cycles.toNat = s.cycles.toNat + n.toNat - 80 ∧
      t.sel = (oamScan s).sel ∧ t.requests = lycRequest s s.ly ∧ t.response = none ∧
      { t with mode := s.mode, cycles := s.cycles, sel := s.sel, stat := s.stat, winFlag := s.winFlag,
               response := s.response, requests := s.requests } = s

/-- R120, R121. DRAW completion: subtract 172, render line LY, enter HBLANK, request STAT under HBL_INT and the gate. -/
def Obligations.DrawCompletionRendersLine : Prop :=
  ∀ (s : State) (n : BitVec 28), Running s → s.mode = .draw → s.ly.toNat < 144 → 172 ≤ s.cycles.toNat + n.toNat →
    s.cycles.toNat + n.toNat < 2 ^ 32 →
    ∃ t, exec (.step n) s = .next t ∧ t.mode = .hblank ∧ t.cycles.toNat = s.cycles.toNat + n.toNat - 172 ∧
      t.work = (renderLine s).work ∧ t.shadow = (renderLine s).shadow ∧ t.winLine = (renderLine s).winLine ∧
      t.requests = statRequest s (hblInt s.stat) ++ lycRequest s s.ly ∧ t.response = none ∧
      { t with mode := s.mode, cycles := s.cycles, work := s.work, shadow := s.shadow, winLine := s.winLine,
               stat := s.stat, winFlag := s.winFlag, response := s.response, requests := s.requests } = s

/-- 40_step.md R125, 40_step.md R122, 92_eei_decisions.md D33. HBLANK completion at any line but the last: LY moves on, OAM follows, with its STAT request (LY past 255: D33, log 18). -/
def Obligations.HblankCompletionEntersOam : Prop :=
  ∀ (s : State) (n : BitVec 28), Running s → s.mode = .hblank → 204 ≤ s.cycles.toNat + n.toNat →
    s.cycles.toNat + n.toNat < 2 ^ 32 → s.ly.toNat ≠ 143 →
    ∃ t, exec (.step n) s = .next t ∧ t.mode = .oamSearch ∧ t.cycles.toNat = s.cycles.toNat + n.toNat - 204 ∧
      t.ly.toNat = (s.ly.toNat + 1) % 256 ∧
      t.requests = statRequest s (oamInt s.stat) ++ lycRequest s t.ly ∧ t.response = none ∧
      { t with mode := s.mode, cycles := s.cycles, ly := s.ly, stat := s.stat, winFlag := s.winFlag,
               response := s.response, requests := s.requests } = s

/-- 40_step.md R123, 40_step.md R124, 90_conflicts.md C2, 92_eei_decisions.md D21. HBLANK completion of line 143: VBLANK at LY 144, VBLANK always requested, STAT under VBL_INT and the gate (ungated: D21, log 18). -/
def Obligations.HblankCompletionEntersVblank : Prop :=
  ∀ (s : State) (n : BitVec 28), Running s → s.mode = .hblank → 204 ≤ s.cycles.toNat + n.toNat →
    s.cycles.toNat + n.toNat < 2 ^ 32 → s.ly.toNat = 143 →
    ∃ t, exec (.step n) s = .next t ∧ t.mode = .vblank ∧ t.cycles.toNat = s.cycles.toNat + n.toNat - 204 ∧
      t.ly = 144 ∧ t.requests = .vblank :: (statRequest s (vblInt s.stat) ++ lycRequest s 144) ∧ t.response = none ∧
      { t with mode := s.mode, cycles := s.cycles, ly := s.ly, stat := s.stat, winFlag := s.winFlag,
               response := s.response, requests := s.requests } = s

/-- R126. VBLANK line completion below line 153: LY moves on, VBLANK stays, no request of its own. -/
def Obligations.VblankLineMovesOn : Prop :=
  ∀ (s : State) (n : BitVec 28), Running s → s.mode = .vblank → 456 ≤ s.cycles.toNat + n.toNat →
    s.cycles.toNat + n.toNat < 2 ^ 32 → s.ly.toNat < 153 →
    ∃ t, exec (.step n) s = .next t ∧ t.mode = .vblank ∧ t.cycles.toNat = s.cycles.toNat + n.toNat - 456 ∧
      t.ly.toNat = s.ly.toNat + 1 ∧ t.requests = lycRequest s t.ly ∧ t.response = none ∧
      { t with cycles := s.cycles, ly := s.ly, stat := s.stat, winFlag := s.winFlag,
               response := s.response, requests := s.requests } = s

/-- R127. VBLANK wrap: DONE takes WORK, LY and the window state go to 0, OAM follows, with its STAT request. -/
def Obligations.VblankWrapPublishesFrame : Prop :=
  ∀ (s : State) (n : BitVec 28), Running s → s.mode = .vblank → 456 ≤ s.cycles.toNat + n.toNat →
    s.cycles.toNat + n.toNat < 2 ^ 32 → 153 ≤ s.ly.toNat →
    ∃ t, exec (.step n) s = .next t ∧ t.mode = .oamSearch ∧ t.cycles.toNat = s.cycles.toNat + n.toNat - 456 ∧
      t.ly = 0 ∧ t.winLine = 0 ∧ (t.winFlag = true ↔ s.wy = 0) ∧ t.doneBuf = s.work ∧
      t.requests = statRequest s (oamInt s.stat) ++ lycRequest s 0 ∧ t.response = none ∧
      { t with mode := s.mode, cycles := s.cycles, ly := s.ly, winLine := s.winLine, winFlag := s.winFlag,
               doneBuf := s.doneBuf, stat := s.stat, response := s.response, requests := s.requests } = s

/-- 40_step.md R117, 40_step.md R118, 92_eei_decisions.md D17, 92_eei_decisions.md D18, 92_eei_decisions.md D19. An enabled STEP makes at most one transition, whatever N is, and carries the remaining cycles (D17, D18, D19, log 18). -/
def Obligations.AtMostOneTransitionPerStep : Prop :=
  ∀ (s t : State) (n : BitVec 28), lcdEn s.lcdc = true → exec (.step n) s = .next t →
    let c := (if s.wasDisabled then 0 else s.cycles.toNat) + n.toNat
    (c < duration s.mode ∧ t.mode = s.mode ∧ t.cycles.toNat = c) ∨
    (duration s.mode ≤ c ∧ t.cycles.toNat + duration s.mode = c ∧
      (s.mode = .oamSearch ∧ t.mode = .draw ∨ s.mode = .draw ∧ t.mode = .hblank ∨
       s.mode = .hblank ∧ (t.mode = .oamSearch ∨ t.mode = .vblank) ∨
       s.mode = .vblank ∧ (t.mode = .vblank ∨ t.mode = .oamSearch)))

/-- R128. Every enabled STEP leaves LYC_EQ equal to LY = LYC, and keeps STAT bits 7..3. -/
def Obligations.LycFlagFollowsCompare : Prop :=
  ∀ (s t : State) (n : BitVec 28), lcdEn s.lcdc = true → exec (.step n) s = .next t →
    (lycEq t.stat = true ↔ t.ly = t.lyc) ∧ t.lyc = s.lyc ∧
    ∀ k, 3 ≤ k → t.stat.getLsbD k = s.stat.getLsbD k

/-- R130. Every enabled STEP sets win_flag where WY = LY, after the wrap has cleared it, and otherwise leaves it. -/
def Obligations.WindowFlagIsSticky : Prop :=
  ∀ (s t : State) (n : BitVec 28), lcdEn s.lcdc = true → exec (.step n) s = .next t →
    t.wy = s.wy ∧
    (t.winFlag = true ↔
      s.wy = t.ly ∨ (s.winFlag = true ∧ s.wasDisabled = false ∧ ¬(s.mode = .vblank ∧ t.mode = .oamSearch)))

/-- 40_step.md R131, 40_step.md R112, 10_state.md R24, 92_eei_decisions.md D6. Every STEP leaves STAT bits 1..0 at the code of its mode (codes 1, 2, 3: general knowledge, D6, log 17). -/
def Obligations.StepForcesModeBits : Prop :=
  ∀ (s t : State) (n : BitVec 28), exec (.step n) s = .next t →
    t.stat.toNat % 4 = (match t.mode with | .hblank => 0 | .vblank => 1 | .oamSearch => 2 | .draw => 3)

/-- 60_exceptions.md R285, 90_conflicts.md C2, 92_eei_decisions.md D21. The STAT blocking quirk: no STAT request where a STAT condition held at the start; VBLANK is not gated (ungated: D21, C2, log 18). -/
def Obligations.StatGateBlocksStatRequests : Prop :=
  ∀ (s t : State) (n : BitVec 28), lcdEn s.lcdc = true → exec (.step n) s = .next t →
    (gateOpen s = false → .stat ∉ t.requests) ∧
    (.vblank ∈ t.requests ↔ s.mode = .hblank ∧ t.mode = .vblank)

/-- 40_step.md R133, 40_step.md R134, 60_exceptions.md R283, 60_exceptions.md R287, 92_eei_decisions.md D22. The exact, ordered interrupt list of a STEP: VBLANK, then the entered mode's STAT, then the LYC STAT (order: D22, log 18). -/
def Obligations.RequestListOfAStep : Prop :=
  ∀ (s t : State) (n : BitVec 28), exec (.step n) s = .next t →
    (lcdEn s.lcdc = false → t.requests = []) ∧
    (lcdEn s.lcdc = true → t.requests =
      (if s.mode = .hblank ∧ t.mode = .vblank then [.vblank] else []) ++
      (if t.mode = s.mode then [] else
        statRequest s (match t.mode with
          | .hblank => hblInt s.stat | .vblank => vblInt s.stat | .oamSearch => oamInt s.stat | .draw => false)) ++
      lycRequest s t.ly) ∧
    t.requests.length ≤ 3

/-- 40_step.md R135. STEP 80, 172, 204 from OAM with no cycles owed completes one visible line in 456 cycles. -/
def Obligations.VisibleLineCadence : Prop :=
  ∀ s : State, Running s → s.mode = .oamSearch → s.cycles = 0 → s.ly.toNat ≤ 143 →
    ∃ t, execAll visibleLineSteps s = .next t ∧ Running t ∧ t.cycles = 0 ∧ t.ly.toNat = s.ly.toNat + 1 ∧
      t.mode = (if s.ly.toNat = 143 then .vblank else .oamSearch) ∧ t.doneBuf = s.doneBuf

/-- 40_step.md R135, 40_step.md R127. 144 visible lines and 10 VBlank lines complete one frame, publish it, and are back where they began. -/
def Obligations.FrameCadence : Prop :=
  ∀ s : State, Running s → s.mode = .oamSearch → s.cycles = 0 → s.ly = 0 →
    ∃ t, execAll frameSteps s = .next t ∧ Running t ∧ t.mode = .oamSearch ∧ t.cycles = 0 ∧ t.ly = 0 ∧
      t.winLine = 0 ∧ t.doneBuf = t.work

/-- 70_reset_and_hazards.md R316. Steps of at most 80 cycles keep the cycle counter below the current mode's duration. -/
def Obligations.DisciplinedStepsOweNoTransition : Prop :=
  ∀ (s t : State) (n : BitVec 28), Running s → BelowDuration s → n.toNat ≤ 80 → exec (.step n) s = .next t →
    BelowDuration t

/-- R153. The scan selects an entry exactly when it is visible and fewer than ten entries before it are. -/
def Obligations.ScanKeepsFirstTenVisible : Prop :=
  ∀ s : State,
    (∀ i : Fin 40, (∃ e ∈ (oamScan s).sel, e.index = i) ↔
      (entryVisible s i = true ∧ ((List.range i.val).filter (entryVisible s)).length < 10)) ∧
    (∀ e ∈ (oamScan s).sel, e.y = memRead s.oam (4 * e.index.val) ∧ e.x = memRead s.oam (4 * e.index.val + 1) ∧
      e.tile = memRead s.oam (4 * e.index.val + 2) ∧ e.attr = memRead s.oam (4 * e.index.val + 3)) ∧
    ((oamScan s).sel.map SelEntry.index).Nodup ∧
    { oamScan s with sel := s.sel } = s

/-- 41_oam_scan.md R154, 43_sprites.md R201, 43_sprites.md R209, 43_sprites.md R211, 92_eei_decisions.md D9, 92_eei_decisions.md D10, 92_eei_decisions.md D27. The kept entries stand in ascending x, equal x by index, and the first draws over the others (layouts: D9, D10, D27, log 17). -/
def Obligations.ScanOrdersByXThenIndex : Prop :=
  ∀ s : State,
    SelOrdered (oamScan s).sel ∧
    ((oamScan s).sel.map (fun e => e.index.val)).Perm (((List.range 40).filter (entryVisible s)).take 10) ∧
    (∀ (e : SelEntry) (rest : List SelEntry) (px c : Nat), (oamScan s).sel = e :: rest → px < 160 → c < 4 →
      objEn s.lcdc = true → s.params.layerObj = true → spriteShows (oamScan s) px e = true →
      memRead (renderLine (oamScan s)).work (4 * (160 * s.ly.toNat + px) + c) =
        colourByte s.params.colorTable
          (shadeNumber (if attrPal e.attr then s.obp1 else s.obp0) (spriteIndexAt s e px)) c)

/-- 42_bg_window.md sections 2 and 3, 20_memory.md section 1, 92_eei_decisions.md D11, 92_eei_decisions.md D12, 92_eei_decisions.md D13, 92_eei_decisions.md D24, 92_eei_decisions.md D50. SHADOW after a render: the window's index, else the background's, else 0, by the spec's address sums (layouts: log 17). -/
def Obligations.ShadowOfRenderedLine : Prop :=
  ∀ (s : State) (px : Nat), px < 160 →
    (memRead (renderLine s).shadow (160 * s.ly.toNat + px)).toNat = shadowIndexAt s px

/-- 43_sprites.md section RenderSprites, 42_bg_window.md sections 2 and 3, 92_eei_decisions.md D9, 92_eei_decisions.md D10, 92_eei_decisions.md D14, 92_eei_decisions.md D16. WORK after a render: the first sprite of the selection that draws there wins, else the background or window colour (layouts: log 17). -/
def Obligations.ColoursOfRenderedLine : Prop :=
  ∀ (s : State) (px c : Nat), px < 160 → c < 4 →
    memRead (renderLine s).work (4 * (160 * s.ly.toNat + px) + c) =
      colourByte s.params.colorTable (shadeShownAt s px) c

/-- 42_bg_window.md section 1, 20_memory.md R69, 20_memory.md R70. A render changes line LY of WORK and SHADOW and win_line, and nothing else. -/
def Obligations.RenderWritesOneLine : Prop :=
  ∀ s : State,
    (∀ a, a < 160 * s.ly.toNat ∨ 160 * s.ly.toNat + 160 ≤ a → memRead (renderLine s).shadow a = memRead s.shadow a) ∧
    (∀ a, a < 640 * s.ly.toNat ∨ 640 * s.ly.toNat + 640 ≤ a → memRead (renderLine s).work a = memRead s.work a) ∧
    { renderLine s with work := s.work, shadow := s.shadow, winLine := s.winLine } = s

/-- 42_bg_window.md R181, 42_bg_window.md R182, 42_bg_window.md R183. win_line moves on by 1 exactly when the window pass runs, LY >= WY and WX <= 166 (past 255: log 15). -/
def Obligations.WindowLineAdvancesWhenDrawn : Prop :=
  ∀ s : State, (renderLine s).winLine.toNat =
    if winEn s.lcdc ∧ s.winFlag ∧ s.params.layerWin ∧ s.wy.toNat ≤ s.ly.toNat ∧ s.wx.toNat ≤ 166
    then (s.winLine.toNat + 1) % 256 else s.winLine.toNat

/-- 43_sprites.md R211, 41_oam_scan.md R156. Sprites never change SHADOW, and a render reads no OAM. -/
def Obligations.SpritePassLeavesShadow : Prop :=
  ∀ (s : State) (sel : List SelEntry) (p q : Byte) (layer : Bool) (oam : Memory 8),
    (renderLine { s with sel := sel, obp0 := p, obp1 := q, oam := oam,
                         params := { s.params with layerObj := layer } }).shadow = (renderLine s).shadow ∧
    (renderLine { s with sel := sel, obp0 := p, obp1 := q, oam := oam,
                         params := { s.params with layerObj := layer } }).winLine = (renderLine s).winLine ∧
    (renderLine { s with oam := oam }).work = (renderLine s).work

/-- 42_bg_window.md section 1, 42_bg_window.md R184, 43_sprites.md R200. The model's render equals the spec's three loops of single writes (log 16). -/
def Obligations.RenderEqualsTheSpecsLoops : Prop :=
  ∀ s : State, renderLineLoop s = renderLine s

/-- 70_reset_and_hazards.md section 1, 10_state.md R26. The reset state meets the invariant. -/
def Obligations.ResetMeetsInvariant : Prop :=
  Inv State.reset

/-- 10_state.md R26, 10_state.md R40, 20_memory.md R60, 41_oam_scan.md R154. Every step keeps the invariant: mirrored mode bits, canonical memories inside their spaces, ordered selection. -/
def Obligations.StepKeepsInvariant : Prop :=
  ∀ s t : State, Inv s → step s = .next t → Inv t

/-- 70_reset_and_hazards.md section 1, 10_state.md R28. The reset state meets the line-range and window-row invariants. -/
def Obligations.ResetIsInFrame : Prop :=
  InFrame State.reset ∧ WindowBounded State.reset

/-- 42_bg_window.md R166, 10_state.md R28, 45_control.md R265. With post-boot parameters inside the frame, no step faults and LY stays in 0..153, below 144 wherever a line is drawn. -/
def Obligations.InFrameStepsNeverFault : Prop :=
  ∀ s : State, InFrame s → (∀ f, step s ≠ .fault f) ∧ ∀ t, step s = .next t → InFrame t

/-- 42_bg_window.md R183, 10_state.md R38. win_line never exceeds 144, nor the lines rendered so far in the frame. -/
def Obligations.WindowRowsNeverExceedLines : Prop :=
  ∀ s t : State, WindowBounded s → step s = .next t → WindowBounded t
end

