-- ==== Sys2Proof/Laws/Decode.lean ====
section
/-! SUPPORT. The masks of the opcode map as fields of a word (30_encoding.md R96): a word matches a row exactly when its
fixed fields have the row's values. -/

namespace Sys2Proof

theorem getLsbD_of_extractLsb'_eq {w p : Word} {lo k : Nat} (h : w.extractLsb' lo k = p.extractLsb' lo k) {i : Nat}
    (h1 : lo ≤ i) (h2 : i < lo + k) : w.getLsbD i = p.getLsbD i := by
  have := congrArg (fun v => v.getLsbD (i - lo)) h
  simpa [show i - lo < k by omega, show lo + (i - lo) = i by omega] using this

theorem getLsbD_of_extractLsb'_zero {p : Word} {lo k : Nat} (h : p.extractLsb' lo k = 0) {i : Nat}
    (h1 : lo ≤ i) (h2 : i < lo + k) : p.getLsbD i = false := by
  have := congrArg (fun v => v.getLsbD (i - lo)) h
  simpa [show i - lo < k by omega, show lo + (i - lo) = i by omega] using this

/-- A mask of the bits from `lo` up compares the field of those bits. -/
theorem and_top_eq_iff {w p mask : Word} {lo k : Nat} (hk : lo + k = 32)
    (hm : ∀ i < 32, mask.getLsbD i = decide (lo ≤ i)) (hp : p.extractLsb' 0 lo = 0) :
    w &&& mask = p ↔ w.extractLsb' lo k = p.extractLsb' lo k := by
  constructor
  · rintro rfl
    apply BitVec.eq_of_getLsbD_eq
    intro i hi
    simp [hi, hm (lo + i) (by omega)]
  · intro h
    apply BitVec.eq_of_getLsbD_eq
    intro i hi
    rw [BitVec.getLsbD_and, hm i hi]
    by_cases hl : lo ≤ i
    · simpa [hl] using getLsbD_of_extractLsb'_eq h hl (by omega)
    · simpa [hl] using (getLsbD_of_extractLsb'_zero hp (Nat.zero_le i) (by omega)).symm

theorem and_top4_eq_iff {w p : Word} (hp : p.extractLsb' 0 28 = 0) :
    w &&& 0xF0000000 = p ↔ w.extractLsb' 28 4 = p.extractLsb' 28 4 :=
  and_top_eq_iff rfl (by decide) hp

theorem and_top8_eq_iff {w p : Word} (hp : p.extractLsb' 0 24 = 0) :
    w &&& 0xFF000000 = p ↔ w.extractLsb' 24 8 = p.extractLsb' 24 8 :=
  and_top_eq_iff rfl (by decide) hp

theorem and_top24_eq_iff {w p : Word} (hp : p.extractLsb' 0 8 = 0) :
    w &&& 0xFFFFFF00 = p ↔ w.extractLsb' 8 24 = p.extractLsb' 8 24 :=
  and_top_eq_iff rfl (by decide) hp

theorem and_top15_eq_iff {w p : Word} (hp : p.extractLsb' 0 17 = 0) :
    w &&& 0xFFFE0000 = p ↔ w.extractLsb' 17 15 = p.extractLsb' 17 15 :=
  and_top_eq_iff rfl (by decide) hp

/-- The mask of a read command compares the top byte and the DATA field. -/
theorem and_read_mask_eq_iff {w p : Word} (hp : p.extractLsb' 8 16 = 0) :
    w &&& 0xFF0000FF = p ↔
      w.extractLsb' 24 8 = p.extractLsb' 24 8 ∧ w.extractLsb' 0 8 = p.extractLsb' 0 8 := by
  have hm : ∀ i < 32, (0xFF0000FF : Word).getLsbD i = (decide (24 ≤ i) || decide (i < 8)) := by decide
  constructor
  · rintro rfl
    constructor <;>
    · apply BitVec.eq_of_getLsbD_eq
      intro i hi
      interval_cases i <;> simp
  · rintro ⟨h1, h2⟩
    apply BitVec.eq_of_getLsbD_eq
    intro i hi
    rw [BitVec.getLsbD_and, hm i hi]
    by_cases ht : 24 ≤ i
    · simpa [ht] using getLsbD_of_extractLsb'_eq h1 ht (by omega)
    · by_cases hb : i < 8
      · simpa [hb] using getLsbD_of_extractLsb'_eq h2 (Nat.zero_le i) (by omega)
      · simpa [ht, hb] using (getLsbD_of_extractLsb'_zero hp (Nat.not_lt.1 hb) (by omega)).symm

theorem and_allOnes_eq_iff {w p : Word} : w &&& 0xFFFFFFFF = p ↔ w = p := by
  rw [show (0xFFFFFFFF : Word) = BitVec.allOnes 32 from rfl, BitVec.and_allOnes]

end Sys2Proof
end

