-- ==== Sys2Proof/Laws/Flags.lean ====
section
/-! SUPPORT. What each write of STAT does to each of its fields (10_state.md R23). -/

namespace Sys2Proof.Machine

@[simp] theorem statMode_setModeBits (stat : Byte) (m : Mode) : statMode (setModeBits stat m) = modeCode m := by
  cases m <;> revert stat <;> decide

@[simp] theorem statMode_setLycEq (stat : Byte) (b : Bool) : statMode (setLycEq stat b) = statMode stat := by
  cases b <;> revert stat <;> decide

@[simp] theorem lycEq_setLycEq (stat : Byte) (b : Bool) : lycEq (setLycEq stat b) = b := by
  cases b <;> revert stat <;> decide

/-- Bits 7..3 of STAT are the host's: neither the compare nor the mode bits touch them. -/
theorem getLsbD_setLycEq (stat : Byte) (b : Bool) (i : Nat) (hi : i ≠ 2) :
    (setLycEq stat b).getLsbD i = stat.getLsbD i := by
  by_cases h : i < 8
  · interval_cases i <;> first | exact absurd rfl hi | (cases b <;> revert stat <;> decide)
  · simp [BitVec.getLsbD_of_ge _ _ (Nat.not_lt.1 h)]

theorem getLsbD_setModeBits (stat : Byte) (m : Mode) (i : Nat) (hi : 2 ≤ i) :
    (setModeBits stat m).getLsbD i = stat.getLsbD i := by
  by_cases h : i < 8
  · interval_cases i <;> cases m <;> revert stat <;> decide
  · simp [BitVec.getLsbD_of_ge _ _ (Nat.not_lt.1 h)]

@[simp] theorem lycEq_setModeBits (stat : Byte) (m : Mode) : lycEq (setModeBits stat m) = lycEq stat :=
  getLsbD_setModeBits stat m 2 (by omega)

@[simp] theorem lycInt_setModeBits (stat : Byte) (m : Mode) : lycInt (setModeBits stat m) = lycInt stat :=
  getLsbD_setModeBits stat m 6 (by omega)

@[simp] theorem oamInt_setModeBits (stat : Byte) (m : Mode) : oamInt (setModeBits stat m) = oamInt stat :=
  getLsbD_setModeBits stat m 5 (by omega)

@[simp] theorem vblInt_setModeBits (stat : Byte) (m : Mode) : vblInt (setModeBits stat m) = vblInt stat :=
  getLsbD_setModeBits stat m 4 (by omega)

@[simp] theorem hblInt_setModeBits (stat : Byte) (m : Mode) : hblInt (setModeBits stat m) = hblInt stat :=
  getLsbD_setModeBits stat m 3 (by omega)

@[simp] theorem lycInt_setLycEq (stat : Byte) (b : Bool) : lycInt (setLycEq stat b) = lycInt stat :=
  getLsbD_setLycEq stat b 6 (by omega)

@[simp] theorem oamInt_setLycEq (stat : Byte) (b : Bool) : oamInt (setLycEq stat b) = oamInt stat :=
  getLsbD_setLycEq stat b 5 (by omega)

@[simp] theorem vblInt_setLycEq (stat : Byte) (b : Bool) : vblInt (setLycEq stat b) = vblInt stat :=
  getLsbD_setLycEq stat b 4 (by omega)

@[simp] theorem hblInt_setLycEq (stat : Byte) (b : Bool) : hblInt (setLycEq stat b) = hblInt stat :=
  getLsbD_setLycEq stat b 3 (by omega)

@[simp] theorem statMode_hostWriteStat (stat v : Byte) : statMode (hostWriteStat stat v) = statMode stat := by
  unfold statMode hostWriteStat
  ext i hi
  have h2 : i < 2 := hi
  interval_cases i <;> simp

/-- A host write of STAT takes bits 7..2 from the written byte. -/
theorem getLsbD_hostWriteStat (stat v : Byte) (i : Nat) (hi : 2 ≤ i) :
    (hostWriteStat stat v).getLsbD i = v.getLsbD i := by
  by_cases h : i < 8
  · unfold hostWriteStat
    interval_cases i <;> simp
  · simp [BitVec.getLsbD_of_ge _ _ (Nat.not_lt.1 h)]

theorem modeCode_injective {m n : Mode} (h : modeCode m = modeCode n) : m = n := by
  cases m <;> cases n <;> first | rfl | exact absurd h (by decide)

end Sys2Proof.Machine
end

