-- ==== Sys2Proof/Laws/Mem.lean ====
section
/-! SUPPORT. What the memory operations do: read after write, the canonical form, and that canonical memories that read
alike are equal. -/

namespace Sys2Proof.Machine

variable {w : Nat}

theorem memRead_append_of_forall_ne {m n : Memory w} {a : Nat} (h : ∀ c ∈ m, c.1 ≠ a) :
    memRead (m ++ n) a = memRead n a := by
  induction m with
  | nil => rfl
  | cons c m ih =>
    obtain ⟨b, v⟩ := c
    have hb : b ≠ a := h (b, v) (by simp)
    simpa [memRead, hb] using ih fun d hd => h d (by simp [hd])

/-- Cells kept by a test on the address alone read as before at an address that passes it. -/
theorem memRead_filter_append {m n : Memory w} {a : Nat} (p : Nat → Bool) (hp : p a = true) (hn : ∀ c ∈ n, c.1 ≠ a) :
    memRead (m.filter (fun c => p c.1) ++ n) a = memRead m a := by
  induction m with
  | nil => simpa [memRead] using memRead_append_of_forall_ne (n := []) hn
  | cons c m ih =>
    obtain ⟨b, v⟩ := c
    by_cases hb : b = a
    · subst hb; simp [memRead, hp]
    · by_cases hq : p b = true
      · simpa [memRead, hb, hq] using ih
      · simpa [memRead, hb, hq] using ih

theorem memCells_cons_zero (base : Nat) (vals : List (BitVec w)) :
    memCells base (0 :: vals) = memCells (base + 1) vals := by
  rw [memCells, if_pos rfl]

theorem memCells_cons_ne {base : Nat} {v : BitVec w} {vals : List (BitVec w)} (hv : v ≠ 0) :
    memCells base (v :: vals) = (base, v) :: memCells (base + 1) vals := by
  rw [memCells, if_neg hv]

theorem mem_memCells {base : Nat} {vals : List (BitVec w)} {c : Nat × BitVec w} (h : c ∈ memCells base vals) :
    base ≤ c.1 ∧ c.1 < base + vals.length ∧ c.2 ≠ 0 := by
  induction vals generalizing base with
  | nil => simp [memCells] at h
  | cons v vals ih =>
    rw [List.length_cons]
    by_cases hv : v = 0
    · rw [hv, memCells_cons_zero] at h
      obtain ⟨h1, h2, h3⟩ := ih h
      exact ⟨by omega, by omega, h3⟩
    · rw [memCells_cons_ne hv, List.mem_cons] at h
      rcases h with rfl | h
      · exact ⟨le_refl _, by omega, hv⟩
      · obtain ⟨h1, h2, h3⟩ := ih h
        exact ⟨by omega, by omega, h3⟩

theorem memRead_memCells_append {base a : Nat} {vals : List (BitVec w)} {n : Memory w}
    (h1 : base ≤ a) (h2 : a < base + vals.length) (hn : ∀ c ∈ n, c.1 ≠ a) :
    memRead (memCells base vals ++ n) a = vals.getD (a - base) 0 := by
  induction vals generalizing base with
  | nil => simp at h2; omega
  | cons v vals ih =>
    by_cases hb : base = a
    · subst hb
      by_cases hv : v = 0
      · have hc : ∀ c ∈ memCells (base + 1) vals, c.1 ≠ base := fun c hc => by
          have := mem_memCells hc
          omega
        subst hv
        rw [memCells_cons_zero, memRead_append_of_forall_ne hc]
        simpa [memRead] using memRead_append_of_forall_ne (n := []) hn
      · simp [memCells_cons_ne hv, memRead]
    · have hlt : base + 1 ≤ a := by omega
      have hlen : a < base + 1 + vals.length := by simp only [List.length_cons] at h2; omega
      have hstep := ih hlt hlen
      have hidx : a - base = (a - (base + 1)) + 1 := by omega
      by_cases hv : v = 0
      · rw [hv, memCells_cons_zero, hidx, List.getD_cons_succ]
        exact hstep
      · rw [memCells_cons_ne hv, hidx, List.getD_cons_succ]
        simpa only [List.cons_append, memRead, if_neg hb] using hstep

/-- Reading after a block write: the written values inside the block, the old ones outside. It holds of every list. -/
theorem memRead_memWriteBlock (m : Memory w) (base : Nat) (vals : List (BitVec w)) (a : Nat) :
    memRead (memWriteBlock m base vals) a =
      if base ≤ a ∧ a < base + vals.length then vals.getD (a - base) 0 else memRead m a := by
  have hhi : ∀ c ∈ m.filter (fun c => decide (base + vals.length ≤ c.1)), base + vals.length ≤ c.1 := by
    intro c hc; simpa using (List.mem_filter.1 hc).2
  have hlo : ∀ c ∈ m.filter (fun c => decide (c.1 < base)), c.1 < base := by
    intro c hc; simpa using (List.mem_filter.1 hc).2
  unfold memWriteBlock
  rw [List.append_assoc]
  by_cases h1 : a < base
  · rw [if_neg (by omega)]
    refine memRead_filter_append (fun b => decide (b < base)) (by simpa using h1) fun c hc => ?_
    rcases List.mem_append.1 hc with hc | hc
    · have := mem_memCells hc; omega
    · have := hhi c hc; omega
  · rw [memRead_append_of_forall_ne fun c hc => by have := hlo c hc; omega]
    by_cases h2 : a < base + vals.length
    · rw [if_pos ⟨by omega, h2⟩]
      exact memRead_memCells_append (by omega) h2 fun c hc => by have := hhi c hc; omega
    · rw [if_neg (by omega), memRead_append_of_forall_ne fun c hc => by have := mem_memCells hc; omega]
      simpa using memRead_filter_append (m := m) (n := []) (a := a)
        (fun b => decide (base + vals.length ≤ b)) (by simpa using h2) (by simp)

/-- Reading after a write. -/
theorem memRead_memWrite (m : Memory w) (a : Nat) (v : BitVec w) (b : Nat) :
    memRead (memWrite m a v) b = if b = a then v else memRead m b := by
  unfold memWrite
  rw [memRead_memWriteBlock]
  by_cases h : b = a
  · subst h; simp
  · rw [if_neg (by simp; omega), if_neg h]

@[simp] theorem memRead_memWrite_same (m : Memory w) (a : Nat) (v : BitVec w) : memRead (memWrite m a v) a = v := by
  simp [memRead_memWrite]

theorem memRead_memWrite_ne {m : Memory w} {a b : Nat} {v : BitVec w} (h : b ≠ a) :
    memRead (memWrite m a v) b = memRead m b := by
  simp [memRead_memWrite, h]

theorem pairwise_memCells (base : Nat) (vals : List (BitVec w)) :
    (memCells base vals).Pairwise (fun c d => c.1 < d.1) := by
  induction vals generalizing base with
  | nil => exact List.Pairwise.nil
  | cons v vals ih =>
    by_cases hv : v = 0
    · rw [hv, memCells_cons_zero]
      exact ih (base + 1)
    · rw [memCells_cons_ne hv]
      exact List.pairwise_cons.2 ⟨fun c hc => by have := mem_memCells hc; simp only; omega, ih (base + 1)⟩

theorem Memory.wf_nil (size : Nat) : Memory.wf size ([] : Memory w) := ⟨List.Pairwise.nil, by simp⟩

/-- A block write inside the space keeps the canonical form. -/
theorem memWriteBlock_wf {size : Nat} {m : Memory w} (h : Memory.wf size m) {base : Nat} {vals : List (BitVec w)}
    (hb : base + vals.length ≤ size) : Memory.wf size (memWriteBlock m base vals) := by
  obtain ⟨hs, hc⟩ := h
  unfold memWriteBlock
  constructor
  · rw [List.append_assoc]
    refine List.pairwise_append.2 ⟨hs.filter _, List.pairwise_append.2 ⟨pairwise_memCells _ _, hs.filter _, ?_⟩, ?_⟩
    · intro c hcm d hd
      have h1 := mem_memCells hcm
      have h2 : base + vals.length ≤ d.1 := by simpa using (List.mem_filter.1 hd).2
      omega
    · intro c hcm d hd
      have h1 : c.1 < base := by simpa using (List.mem_filter.1 hcm).2
      rcases List.mem_append.1 hd with hd | hd
      · have h2 := mem_memCells hd; omega
      · have h2 : base + vals.length ≤ d.1 := by simpa using (List.mem_filter.1 hd).2
        omega
  · intro c hcm
    rcases List.mem_append.1 hcm with hcm | hcm
    · rcases List.mem_append.1 hcm with hcm | hcm
      · exact hc c (List.mem_filter.1 hcm).1
      · have h1 := mem_memCells hcm
        exact ⟨by omega, h1.2.2⟩
    · exact hc c (List.mem_filter.1 hcm).1

/-- A write inside the space keeps the canonical form. -/
theorem memWrite_wf {size : Nat} {m : Memory w} (h : Memory.wf size m) {a : Nat} {v : BitVec w} (ha : a < size) :
    Memory.wf size (memWrite m a v) :=
  memWriteBlock_wf h (by simpa using ha)

theorem memRead_eq_zero_of_forall_ne {m : Memory w} {a : Nat} (h : ∀ c ∈ m, c.1 ≠ a) : memRead m a = 0 := by
  simpa [memRead] using memRead_append_of_forall_ne (n := []) h

/-- Canonical memories that read alike are equal. -/
theorem Memory.ext_of_wf {size : Nat} {m n : Memory w} (hm : Memory.wf size m) (hn : Memory.wf size n)
    (h : ∀ a, memRead m a = memRead n a) : m = n := by
  induction m generalizing n with
  | nil =>
    cases n with
    | nil => rfl
    | cons d n =>
      have := h d.1
      exact absurd (by simpa [memRead] using this.symm) (hn.2 d (by simp)).2
  | cons c m ih =>
    cases n with
    | nil =>
      have := h c.1
      exact absurd (by simpa [memRead] using this) (hm.2 c (by simp)).2
    | cons d n =>
      obtain ⟨b, v⟩ := c
      obtain ⟨e, u⟩ := d
      have hv : v ≠ 0 := (hm.2 (b, v) (by simp)).2
      have hu : u ≠ 0 := (hn.2 (e, u) (by simp)).2
      have hmh : ∀ c ∈ m, b < c.1 := (List.pairwise_cons.1 hm.1).1
      have hnh : ∀ c ∈ n, e < c.1 := (List.pairwise_cons.1 hn.1).1
      have hbe : b = e := by
        rcases Nat.lt_trichotomy b e with hlt | heq | hlt
        · have h1 := h b
          have h0 : memRead n b = 0 := memRead_eq_zero_of_forall_ne fun c hc => by have := hnh c hc; omega
          simp [memRead, show e ≠ b by omega, h0] at h1
          exact absurd h1 hv
        · exact heq
        · have h1 := h e
          have h0 : memRead m e = 0 := memRead_eq_zero_of_forall_ne fun c hc => by have := hmh c hc; omega
          simp [memRead, show b ≠ e by omega, h0] at h1
          exact absurd h1.symm hu
      subst hbe
      have hvu : v = u := by simpa [memRead] using h b
      subst hvu
      have htail : m = n := by
        refine ih ⟨(List.pairwise_cons.1 hm.1).2, fun c hc => hm.2 c (by simp [hc])⟩
          ⟨(List.pairwise_cons.1 hn.1).2, fun c hc => hn.2 c (by simp [hc])⟩ fun a => ?_
        by_cases ha : b = a
        · subst ha
          rw [memRead_eq_zero_of_forall_ne fun c hc => by have := hmh c hc; omega,
            memRead_eq_zero_of_forall_ne fun c hc => by have := hnh c hc; omega]
        · simpa [memRead, ha] using h a
      rw [htail]

end Sys2Proof.Machine
end

