-- ==== Sys2Proof/Laws/Operands.lean ====
section
/-! SUPPORT. What the operand forms select, and that they stay inside their spaces. -/

namespace Sys2Proof.Machine

/-- A VRAM index is below 8192 (20_memory.md R61). -/
theorem vramIndex_lt (addr : BitVec 16) : vramIndex addr < Config.vramSize := by
  unfold vramIndex
  rw [BitVec.toNat_and]
  exact Nat.lt_succ_of_le (Nat.and_le_right (n := addr.toNat) (m := 8191))

/-- Masking keeps the low 13 bits (20_memory.md R61). -/
theorem vramIndex_eq_mod (addr : BitVec 16) : vramIndex addr = addr.toNat % 8192 := by
  unfold vramIndex
  rw [BitVec.toNat_and]
  exact Nat.and_two_pow_sub_one_eq_mod addr.toNat 13

theorem oamOffset_eq_mod (addr : BitVec 16) : oamOffset addr = addr.toNat % 256 := by
  simp [oamOffset, lowByte]

@[simp] theorem regOfAddr_regAddr (r : Reg) : regOfAddr (regAddr r) = some r := by
  cases r <;> rfl

/-- An address selects a register exactly where the contract of 30_encoding.md R100 has one. -/
theorem isSome_regOfAddr (addr : BitVec 16) : (regOfAddr addr).isSome = namesRegister addr := by
  unfold regOfAddr namesRegister
  have hk : (lowByte addr).toNat < 256 := (lowByte addr).isLt
  generalize (lowByte addr).toNat = k at hk
  interval_cases k <;> rfl

@[simp] theorem length_dmaBytes (page : Byte) (s : State) : (dmaBytes page s).length = 160 := by
  simp [dmaBytes]

end Sys2Proof.Machine
end

