-- ==== Sys2Proof/Laws/PerInstr.lean ====
section
/-! SUPPORT. For each command: its word matches its row of the opcode map, and the row builds the command back
(30_encoding.md R96, R97). -/

namespace Sys2Proof.Laws.MatchesRow

/-- The word of the command matches a row of the opcode map that builds the same command from it. -/
def Statement (i : Instr) : Prop :=
  ∃ r ∈ opcodeMap, rowMatches (encode i) r = true ∧ r.build (encode i) = i

/-- The fields of a format M word, read where R93 puts them. -/
theorem formatM_fields (op res : BitVec 4) (addr : BitVec 16) (data : Byte) :
    ((op ++ res ++ addr ++ data : Word).extractLsb' 24 8 = op ++ res) ∧
    ((op ++ res ++ addr ++ data : Word).extractLsb' 8 16 = addr) ∧
    ((op ++ res ++ addr ++ data : Word).extractLsb' 0 8 = data) := by
  refine ⟨?_, ?_, ?_⟩ <;>
  · apply BitVec.eq_of_getLsbD_eq
    intro i hi
    simp only [BitVec.getLsbD_extractLsb', BitVec.getLsbD_append, hi, decide_true, Bool.true_and]
    interval_cases i <;> rfl

/-- A word made of two fields, read where they stand. -/
theorem append_fields {k m : Nat} (hi : BitVec k) (lo : BitVec m) :
    (hi ++ lo).extractLsb' m k = hi ∧ (hi ++ lo).extractLsb' 0 m = lo :=
  ⟨BitVec.extractLsb'_append_eq_left, BitVec.extractLsb'_append_eq_right⟩

theorem step (n : BitVec 28) : Statement (.step n) := by
  refine ⟨⟨"STEP", 0xF0000000, 0x10000000, fun w => .step (fieldN w)⟩, by simp [opcodeMap], ?_, ?_⟩
  · rw [rowMatches, beq_iff_eq, and_top4_eq_iff (by decide)]
    exact (append_fields 0x1#4 n).1.trans (by decide)
  · exact congrArg Instr.step (append_fields 0x1#4 n).2

theorem resetHard : Statement .resetHard :=
  ⟨_, .tail _ (.head _), by decide, rfl⟩

theorem resetSoft : Statement .resetSoft :=
  ⟨_, .tail _ (.tail _ (.head _)), by decide, rfl⟩

theorem postBoot : Statement .postBoot :=
  ⟨_, .tail _ (.tail _ (.tail _ (.head _))), by decide, rfl⟩

theorem regRd (addr : BitVec 16) : Statement (.regRd addr) := by
  refine ⟨⟨"REG_RD", 0xFF0000FF, 0x40000000, fun w => .regRd (fieldAddr w)⟩, by simp [opcodeMap], ?_, ?_⟩
  · rw [rowMatches, beq_iff_eq, and_read_mask_eq_iff (by decide)]
    have h := formatM_fields 0x4#4 0#4 addr 0#8
    exact ⟨h.1.trans (by decide), h.2.2.trans (by decide)⟩
  · exact congrArg Instr.regRd (formatM_fields 0x4#4 0#4 addr 0#8).2.1

theorem regWr (addr : BitVec 16) (data : Byte) : Statement (.regWr addr data) := by
  refine ⟨⟨"REG_WR", 0xFF000000, 0x50000000, fun w => .regWr (fieldAddr w) (fieldData w)⟩, by simp [opcodeMap], ?_, ?_⟩
  · rw [rowMatches, beq_iff_eq, and_top8_eq_iff (by decide)]
    exact (formatM_fields 0x5#4 0#4 addr data).1.trans (by decide)
  · have h := formatM_fields 0x5#4 0#4 addr data
    exact congrArg₂ Instr.regWr h.2.1 h.2.2

theorem vramRd (addr : BitVec 16) : Statement (.vramRd addr) := by
  refine ⟨⟨"VRAM_RD", 0xFF0000FF, 0x60000000, fun w => .vramRd (fieldAddr w)⟩, by simp [opcodeMap], ?_, ?_⟩
  · rw [rowMatches, beq_iff_eq, and_read_mask_eq_iff (by decide)]
    have h := formatM_fields 0x6#4 0#4 addr 0#8
    exact ⟨h.1.trans (by decide), h.2.2.trans (by decide)⟩
  · exact congrArg Instr.vramRd (formatM_fields 0x6#4 0#4 addr 0#8).2.1

theorem vramWr (addr : BitVec 16) (data : Byte) : Statement (.vramWr addr data) := by
  refine ⟨⟨"VRAM_WR", 0xFF000000, 0x70000000, fun w => .vramWr (fieldAddr w) (fieldData w)⟩, by simp [opcodeMap], ?_, ?_⟩
  · rw [rowMatches, beq_iff_eq, and_top8_eq_iff (by decide)]
    exact (formatM_fields 0x7#4 0#4 addr data).1.trans (by decide)
  · have h := formatM_fields 0x7#4 0#4 addr data
    exact congrArg₂ Instr.vramWr h.2.1 h.2.2

theorem oamRd (addr : BitVec 16) : Statement (.oamRd addr) := by
  refine ⟨⟨"OAM_RD", 0xFF0000FF, 0x80000000, fun w => .oamRd (fieldAddr w)⟩, by simp [opcodeMap], ?_, ?_⟩
  · rw [rowMatches, beq_iff_eq, and_read_mask_eq_iff (by decide)]
    have h := formatM_fields 0x8#4 0#4 addr 0#8
    exact ⟨h.1.trans (by decide), h.2.2.trans (by decide)⟩
  · exact congrArg Instr.oamRd (formatM_fields 0x8#4 0#4 addr 0#8).2.1

theorem oamWr (addr : BitVec 16) (data : Byte) : Statement (.oamWr addr data) := by
  refine ⟨⟨"OAM_WR", 0xFF000000, 0x90000000, fun w => .oamWr (fieldAddr w) (fieldData w)⟩, by simp [opcodeMap], ?_, ?_⟩
  · rw [rowMatches, beq_iff_eq, and_top8_eq_iff (by decide)]
    exact (formatM_fields 0x9#4 0#4 addr data).1.trans (by decide)
  · have h := formatM_fields 0x9#4 0#4 addr data
    exact congrArg₂ Instr.oamWr h.2.1 h.2.2

theorem dma (page : Byte) : Statement (.dma page) := by
  refine ⟨⟨"DMA", 0xFFFFFF00, 0xA0000000, fun w => .dma (fieldPage w)⟩, by simp [opcodeMap], ?_, ?_⟩
  · rw [rowMatches, beq_iff_eq, and_top24_eq_iff (by decide)]
    exact (append_fields (0xA#4 ++ 0#20) page).1.trans (by decide)
  · exact congrArg Instr.dma (append_fields (0xA#4 ++ 0#20) page).2

theorem frameRd (idx : BitVec 17) : Statement (.frameRd idx) := by
  refine ⟨⟨"FRAME_RD", 0xFFFE0000, 0xB0000000, fun w => .frameRd (fieldIdx w)⟩, by simp [opcodeMap], ?_, ?_⟩
  · rw [rowMatches, beq_iff_eq, and_top15_eq_iff (by decide)]
    exact (append_fields (0xB#4 ++ 0#11) idx).1.trans (by decide)
  · exact congrArg Instr.frameRd (append_fields (0xB#4 ++ 0#11) idx).2

end Sys2Proof.Laws.MatchesRow
end

