-- ==== Sys2Proof/Laws/Render.lean ====
section
/-! SUPPORT. What a line render leaves in SHADOW and WORK (42_bg_window.md R173, R174), and what the sprite pass keeps. -/

namespace Sys2Proof.Machine

@[simp] theorem length_renderedLine (s : State) : (renderedLine s).length = 160 := by
  simp [renderedLine]

@[simp] theorem length_colourBytes (c : Colour) : (colourBytes c).length = 4 := rfl

theorem getElem?_renderedLine (s : State) {px : Nat} (h : px < 160) :
    (renderedLine s)[px]? = some (linePixel s px) := by
  simp [renderedLine, h]

theorem length_flatMap_colourBytes (l : List Pixel) :
    (l.flatMap (fun p => colourBytes p.colour)).length = 4 * l.length := by
  induction l with
  | nil => rfl
  | cons p l ih => simp only [List.flatMap_cons, List.length_append, length_colourBytes, ih, List.length_cons]; omega

/-- Byte `c` of pixel `i` of a line of colours. -/
theorem getD_flatMap_colourBytes {l : List Pixel} {i c : Nat} {p : Pixel} (hp : l[i]? = some p) (hc : c < 4) :
    (l.flatMap (fun p => colourBytes p.colour)).getD (4 * i + c) 0 = (colourBytes p.colour).getD c 0 := by
  induction l generalizing i with
  | nil => simp at hp
  | cons q l ih =>
    cases i with
    | zero =>
      have hq : q = p := by simpa using hp
      subst hq
      simp only [List.flatMap_cons, Nat.mul_zero, Nat.zero_add, List.getD_eq_getElem?_getD]
      rw [List.getElem?_append_left (by simpa using hc)]
    | succ i =>
      have hp' : l[i]? = some p := by simpa using hp
      rw [← ih hp']
      simp only [List.flatMap_cons, List.getD_eq_getElem?_getD]
      rw [List.getElem?_append_right (by simp; omega), length_colourBytes]
      congr 2
      omega

/-- SHADOW after a render, at a column of the line rendered. -/
theorem memRead_renderLine_shadow (s : State) {px : Nat} (h : px < 160) :
    memRead (renderLine s).shadow (160 * s.ly.toNat + px) = (linePixel s px).ci := by
  rw [renderLine_shadow, memRead_memWriteBlock, if_pos (by simp [shadowLineBase]; omega)]
  simp [shadowLineBase, List.getD_eq_getElem?_getD, getElem?_renderedLine s h]

/-- SHADOW after a render, away from the line rendered. -/
theorem memRead_renderLine_shadow_ne (s : State) {a : Nat}
    (h : a < 160 * s.ly.toNat ∨ 160 * s.ly.toNat + 160 ≤ a) :
    memRead (renderLine s).shadow a = memRead s.shadow a := by
  rw [renderLine_shadow, memRead_memWriteBlock, if_neg (by simp [shadowLineBase]; omega)]

/-- WORK after a render: byte `c` of a column of the line rendered. -/
theorem memRead_renderLine_work (s : State) {px c : Nat} (h : px < 160) (hc : c < 4) :
    memRead (renderLine s).work (4 * (160 * s.ly.toNat + px) + c) = (colourBytes (linePixel s px).colour).getD c 0 := by
  rw [renderLine_work, memRead_memWriteBlock, length_flatMap_colourBytes, length_renderedLine,
    if_pos (by simp only [workLineBase]; omega)]
  rw [← getD_flatMap_colourBytes (getElem?_renderedLine s h) hc]
  congr 1
  simp only [workLineBase]
  omega

/-- WORK after a render, away from the line rendered. -/
theorem memRead_renderLine_work_ne (s : State) {a : Nat}
    (h : a < 640 * s.ly.toNat ∨ 640 * s.ly.toNat + 640 ≤ a) :
    memRead (renderLine s).work a = memRead s.work a := by
  rw [renderLine_work, memRead_memWriteBlock, length_flatMap_colourBytes, length_renderedLine,
    if_neg (by simp only [workLineBase]; omega)]

/-- A sprite never changes the shadow index (43_sprites.md R211). -/
@[simp] theorem spriteOver_ci (s : State) (px : Nat) (e : SelEntry) (under : Pixel) :
    (spriteOver s px e under).ci = under.ci := by
  unfold spriteOver; split <;> rfl

theorem foldr_spriteOver_ci (s : State) (px : Nat) (sel : List SelEntry) (under : Pixel) :
    (sel.foldr (spriteOver s px) under).ci = under.ci := by
  induction sel with
  | nil => rfl
  | cons e sel ih => simp [ih]

@[simp] theorem spritesOver_ci (s : State) (px : Nat) (under : Pixel) : (spritesOver s px under).ci = under.ci := by
  unfold spritesOver; split
  · exact foldr_spriteOver_ci s px s.sel under
  · rfl

/-- A render inside the frame keeps the canonical form of SHADOW and WORK. -/
theorem renderLine_shadow_wf {s : State} (hl : s.ly.toNat < 144) (h : Memory.wf Config.shadowSize s.shadow) :
    Memory.wf Config.shadowSize (renderLine s).shadow := by
  rw [renderLine_shadow]
  exact memWriteBlock_wf h (by simp [shadowLineBase, Config.shadowSize]; omega)

theorem renderLine_work_wf {s : State} (hl : s.ly.toNat < 144) (h : Memory.wf Config.frameSize s.work) :
    Memory.wf Config.frameSize (renderLine s).work := by
  rw [renderLine_work]
  exact memWriteBlock_wf h (by rw [length_flatMap_colourBytes, length_renderedLine]; simp only [workLineBase, Config.frameSize]; omega)

end Sys2Proof.Machine
end

