-- ==== Sys2Proof/Laws/Scan.lean ====
section
/-! SUPPORT. The stable sort of the OAM scan keeps the elements found (41_oam_scan.md R154). -/

namespace Sys2Proof.Machine

theorem sortByX_perm (found : List SelEntry) : (sortByX found).Perm found :=
  List.perm_insertionSort _ _

theorem length_scanFound_le (s : State) : (scanFound s).length ≤ Config.selLimit := by
  simp [scanFound]

theorem length_sortByX (found : List SelEntry) : (sortByX found).length = found.length :=
  (sortByX_perm found).length_eq

theorem mem_sortByX {found : List SelEntry} {e : SelEntry} : e ∈ sortByX found ↔ e ∈ found :=
  (sortByX_perm found).mem_iff

end Sys2Proof.Machine
end

