-- ==== Sys2Proof/Laws/State.lean ====
section
/-! SUPPORT. Field lemmas of the state updates that are no plain record update: a host register write and the re-enable
soft reset. (The plain ones have theirs from @[simps] at their definitions.) -/

namespace Sys2Proof.Machine

@[simp] theorem hostWriteReg_mode (s : State) (v : Byte) (r : Reg) : (hostWriteReg s v r).mode = s.mode := by
  cases r <;> rfl

@[simp] theorem hostWriteReg_cycles (s : State) (v : Byte) (r : Reg) : (hostWriteReg s v r).cycles = s.cycles := by
  cases r <;> rfl

@[simp] theorem hostWriteReg_wasDisabled (s : State) (v : Byte) (r : Reg) : (hostWriteReg s v r).wasDisabled = s.wasDisabled := by
  cases r <;> rfl

@[simp] theorem hostWriteReg_winFlag (s : State) (v : Byte) (r : Reg) : (hostWriteReg s v r).winFlag = s.winFlag := by
  cases r <;> rfl

@[simp] theorem hostWriteReg_winLine (s : State) (v : Byte) (r : Reg) : (hostWriteReg s v r).winLine = s.winLine := by
  cases r <;> rfl

@[simp] theorem hostWriteReg_sel (s : State) (v : Byte) (r : Reg) : (hostWriteReg s v r).sel = s.sel := by
  cases r <;> rfl

@[simp] theorem hostWriteReg_vram (s : State) (v : Byte) (r : Reg) : (hostWriteReg s v r).vram = s.vram := by
  cases r <;> rfl

@[simp] theorem hostWriteReg_oam (s : State) (v : Byte) (r : Reg) : (hostWriteReg s v r).oam = s.oam := by
  cases r <;> rfl

@[simp] theorem hostWriteReg_work (s : State) (v : Byte) (r : Reg) : (hostWriteReg s v r).work = s.work := by
  cases r <;> rfl

@[simp] theorem hostWriteReg_doneBuf (s : State) (v : Byte) (r : Reg) : (hostWriteReg s v r).doneBuf = s.doneBuf := by
  cases r <;> rfl

@[simp] theorem hostWriteReg_shadow (s : State) (v : Byte) (r : Reg) : (hostWriteReg s v r).shadow = s.shadow := by
  cases r <;> rfl

@[simp] theorem hostWriteReg_response (s : State) (v : Byte) (r : Reg) : (hostWriteReg s v r).response = s.response := by
  cases r <;> rfl

@[simp] theorem hostWriteReg_requests (s : State) (v : Byte) (r : Reg) : (hostWriteReg s v r).requests = s.requests := by
  cases r <;> rfl

@[simp] theorem hostWriteReg_commands (s : State) (v : Byte) (r : Reg) : (hostWriteReg s v r).commands = s.commands := by
  cases r <;> rfl

@[simp] theorem hostWriteReg_params (s : State) (v : Byte) (r : Reg) : (hostWriteReg s v r).params = s.params := by
  cases r <;> rfl

@[simp] theorem hostWriteReg_busReads (s : State) (v : Byte) (r : Reg) : (hostWriteReg s v r).busReads = s.busReads := by
  cases r <;> rfl

@[simp] theorem hostWriteReg_ly (s : State) (v : Byte) (r : Reg) : (hostWriteReg s v r).ly = s.ly := by
  cases r <;> rfl

/-- A host write changes the register it names and no other. -/
theorem readReg_hostWriteReg_ne (s : State) (v : Byte) {r q : Reg} (h : q ≠ r) :
    readReg (hostWriteReg s v r) q = readReg s q := by
  cases r <;> cases q <;> first | rfl | exact absurd rfl h

theorem statMode_hostWriteReg (s : State) (v : Byte) (r : Reg) :
    statMode (hostWriteReg s v r).stat = statMode s.stat := by
  cases r <;> first | rfl | exact statMode_hostWriteStat s.stat v

@[simp] theorem wake_lcdc (s : State) : (wake s).lcdc = s.lcdc := by
  unfold wake; split <;> rfl

@[simp] theorem wake_stat (s : State) : (wake s).stat = s.stat := by
  unfold wake; split <;> rfl

@[simp] theorem wake_scy (s : State) : (wake s).scy = s.scy := by
  unfold wake; split <;> rfl

@[simp] theorem wake_scx (s : State) : (wake s).scx = s.scx := by
  unfold wake; split <;> rfl

@[simp] theorem wake_lyc (s : State) : (wake s).lyc = s.lyc := by
  unfold wake; split <;> rfl

@[simp] theorem wake_bgp (s : State) : (wake s).bgp = s.bgp := by
  unfold wake; split <;> rfl

@[simp] theorem wake_obp0 (s : State) : (wake s).obp0 = s.obp0 := by
  unfold wake; split <;> rfl

@[simp] theorem wake_obp1 (s : State) : (wake s).obp1 = s.obp1 := by
  unfold wake; split <;> rfl

@[simp] theorem wake_wy (s : State) : (wake s).wy = s.wy := by
  unfold wake; split <;> rfl

@[simp] theorem wake_wx (s : State) : (wake s).wx = s.wx := by
  unfold wake; split <;> rfl

@[simp] theorem wake_mode (s : State) : (wake s).mode = s.mode := by
  unfold wake; split <;> rfl

@[simp] theorem wake_sel (s : State) : (wake s).sel = s.sel := by
  unfold wake; split <;> rfl

@[simp] theorem wake_vram (s : State) : (wake s).vram = s.vram := by
  unfold wake; split <;> rfl

@[simp] theorem wake_oam (s : State) : (wake s).oam = s.oam := by
  unfold wake; split <;> rfl

@[simp] theorem wake_work (s : State) : (wake s).work = s.work := by
  unfold wake; split <;> rfl

@[simp] theorem wake_doneBuf (s : State) : (wake s).doneBuf = s.doneBuf := by
  unfold wake; split <;> rfl

@[simp] theorem wake_shadow (s : State) : (wake s).shadow = s.shadow := by
  unfold wake; split <;> rfl

@[simp] theorem wake_response (s : State) : (wake s).response = s.response := by
  unfold wake; split <;> rfl

@[simp] theorem wake_requests (s : State) : (wake s).requests = s.requests := by
  unfold wake; split <;> rfl

@[simp] theorem wake_commands (s : State) : (wake s).commands = s.commands := by
  unfold wake; split <;> rfl

@[simp] theorem wake_params (s : State) : (wake s).params = s.params := by
  unfold wake; split <;> rfl

@[simp] theorem wake_busReads (s : State) : (wake s).busReads = s.busReads := by
  unfold wake; split <;> rfl

@[simp] theorem wake_ly (s : State) : (wake s).ly = if s.wasDisabled then 0 else s.ly := by
  unfold wake; split <;> rfl

@[simp] theorem wake_winLine (s : State) : (wake s).winLine = if s.wasDisabled then 0 else s.winLine := by
  unfold wake; split <;> rfl

@[simp] theorem wake_winFlag (s : State) : (wake s).winFlag = if s.wasDisabled then false else s.winFlag := by
  unfold wake; split <;> rfl

@[simp] theorem wake_wasDisabled (s : State) : (wake s).wasDisabled = false := by
  unfold wake; split
  · rfl
  · simp_all

theorem wake_of_not_wasDisabled {s : State} (h : s.wasDisabled = false) : wake s = s := by
  simp [wake, h]

theorem startCycles_of_not_wasDisabled {s : State} (h : s.wasDisabled = false) : startCycles s = s.cycles.toNat := by
  simp [startCycles, h]

@[simp] theorem startCycles_clearOutputs (s : State) : startCycles (clearOutputs s) = startCycles s := rfl

end Sys2Proof.Machine
end

