-- ==== Sys2Proof/Laws/Timing.lean ====
section
/-! SUPPORT. What a STEP can do, said once: its outcomes and the cases of a transition (40_step.md R111). -/

namespace Sys2Proof.Machine

/-- The outcome of a STEP with the display disabled (40_step.md R112). -/
theorem execStep_disabled {n : BitVec 28} {s : State} (h : lcdEn s.lcdc = false) :
    execStep n s = .next (disabledStep (clearOutputs s)) := by
  simp [execStep, h]

theorem execStep_overflow {n : BitVec 28} {s : State} (h : lcdEn s.lcdc = true)
    (hc : Config.cycleLimit ≤ startCycles s + n.toNat) : execStep n s = .refused .cycleOverflow := by
  simp [execStep, h, hc]

theorem execStep_enabled {n : BitVec 28} {s : State} (h : lcdEn s.lcdc = true)
    (hc : startCycles s + n.toNat < Config.cycleLimit) : execStep n s = enabledStep n (clearOutputs s) := by
  simp [execStep, h, Nat.not_le.2 hc]

/-- The cycles an enabled STEP has when its table is evaluated. -/
theorem accumulate_cycles_toNat {n : BitVec 28} {s : State} (hc : startCycles s + n.toNat < Config.cycleLimit) :
    (accumulate n s).cycles.toNat = startCycles s + n.toNat := by
  simp only [accumulate_cycles, BitVec.toNat_ofNat]
  exact Nat.mod_eq_of_lt hc

theorem payDuration_cycles_toNat (s : State) :
    (payDuration s).cycles.toNat = s.cycles.toNat - duration s.mode := by
  simp only [payDuration_cycles, BitVec.toNat_ofNat]
  have := s.cycles.isLt
  exact Nat.mod_eq_of_lt (by omega)

/-- The cases of the table (40_step.md R117 to R127). -/
theorem transition_next_cases {allowed : Bool} {s t : State} (h : transition allowed s = .next t) :
    (s.cycles.toNat < duration s.mode ∧ t = s) ∨
    (s.mode = .oamSearch ∧ 80 ≤ s.cycles.toNat ∧ t = completeOam (payDuration s)) ∨
    (s.mode = .draw ∧ 172 ≤ s.cycles.toNat ∧ s.ly.toNat < 144 ∧
      t = requestStatIf (hblInt s.stat && allowed) { renderLine (payDuration s) with mode := .hblank }) ∨
    (s.mode = .hblank ∧ 204 ≤ s.cycles.toNat ∧ t = completeHblank allowed (payDuration s)) ∨
    (s.mode = .vblank ∧ 456 ≤ s.cycles.toNat ∧ t = completeVblank allowed (payDuration s)) := by
  unfold transition at h
  split at h
  · rename_i hlt
    exact .inl ⟨hlt, by simpa using h.symm⟩
  · rename_i hge
    rw [Nat.not_lt] at hge
    right
    split at h <;> rename_i hm <;> rw [hm] at hge
    · exact .inl ⟨hm, hge, by simpa using h.symm⟩
    · unfold completeDraw at h
      split at h
      · exact absurd h (by simp)
      · rename_i hly
        exact .inr (.inl ⟨hm, hge, Nat.not_le.1 hly, by simpa using h.symm⟩)
    · exact .inr (.inr (.inl ⟨hm, hge, by simpa using h.symm⟩))
    · exact .inr (.inr (.inr ⟨hm, hge, by simpa using h.symm⟩))

/-- The table answers a next state, or faults where a line would be rendered outside the frame (42_bg_window.md R166). -/
theorem transition_outcome (allowed : Bool) (s : State) :
    (∃ t, transition allowed s = .next t) ∨
    (transition allowed s = .fault .renderOutsideFrame ∧ s.mode = .draw ∧ 172 ≤ s.cycles.toNat ∧ 144 ≤ s.ly.toNat) := by
  unfold transition
  split
  · exact .inl ⟨_, rfl⟩
  · rename_i hge
    rw [Nat.not_lt] at hge
    split <;> rename_i hm <;> rw [hm] at hge
    · exact .inl ⟨_, rfl⟩
    · unfold completeDraw
      split
      · rename_i hly
        exact .inr ⟨rfl, hm, hge, hly⟩
      · exact .inl ⟨_, rfl⟩
    · exact .inl ⟨_, rfl⟩
    · exact .inl ⟨_, rfl⟩

/-- The state the table of STEP N starts from. -/
abbrev tableStart (n : BitVec 28) (s : State) : State := accumulate n (clearOutputs s)

/-- The gate of STEP, from the state before it: the soft reset changes none of its inputs (40_step.md R114). -/
theorem statAllowed_wake_clearOutputs (s : State) :
    statAllowed (wake (clearOutputs s)) = !anyStat s.stat s.mode := by
  simp [statAllowed]

theorem enabledStep_eq (n : BitVec 28) (s : State) :
    enabledStep n (clearOutputs s) =
      match transition (!anyStat s.stat s.mode) (tableStart n s) with
      | .next t => .next (afterTable (!anyStat s.stat s.mode) t)
      | .fault f => .fault f
      | .refused r => .refused r := by
  rw [← statAllowed_wake_clearOutputs]
  rfl

/-- What a STEP that answers a next state did: the disabled branch, or a table case and what follows the table. -/
theorem execStep_next_cases {n : BitVec 28} {s t : State} (h : execStep n s = .next t) :
    (lcdEn s.lcdc = false ∧ t = disabledStep (clearOutputs s)) ∨
    (lcdEn s.lcdc = true ∧ startCycles s + n.toNat < Config.cycleLimit ∧
      ∃ u, transition (!anyStat s.stat s.mode) (tableStart n s) = .next u ∧
        t = afterTable (!anyStat s.stat s.mode) u) := by
  cases hl : lcdEn s.lcdc with
  | false =>
    rw [execStep_disabled hl] at h
    exact .inl ⟨rfl, by simpa using h.symm⟩
  | true =>
    by_cases hc : startCycles s + n.toNat < Config.cycleLimit
    · rw [execStep_enabled hl hc, enabledStep_eq] at h
      refine .inr ⟨rfl, hc, ?_⟩
      cases ht : transition (!anyStat s.stat s.mode) (tableStart n s) with
      | next u => rw [ht] at h; exact ⟨u, rfl, by simpa using h.symm⟩
      | fault f => rw [ht] at h; exact absurd h (by simp)
      | refused r => rw [ht] at h; exact absurd h (by simp)
    · rw [execStep_overflow hl (Nat.not_lt.1 hc)] at h
      exact absurd h (by simp)

/-- An enabled STEP whose table answers `u` answers what follows the table. -/
theorem execStep_of_transition {n : BitVec 28} {s u : State} (hl : lcdEn s.lcdc = true)
    (hc : startCycles s + n.toNat < Config.cycleLimit)
    (hu : transition (!anyStat s.stat s.mode) (tableStart n s) = .next u) :
    execStep n s = .next (afterTable (!anyStat s.stat s.mode) u) := by
  rw [execStep_enabled hl hc, enabledStep_eq, hu]

end Sys2Proof.Machine
end

