-- ==== Sys2Proof/Tests/Slice0.lean ====
section
/-! SUPPORT. The model's own tests, and for every statement with hypotheses a witness that meets them all. Expected values
are the vectors of spec/95_test_vectors.md (named in each docstring) or the cited rule worked by hand. -/

namespace Sys2Proof.Machine

/-- The test colour table CT of spec/95_test_vectors.md. -/
def testColours : ColorTable :=
  ⟨⟨255, 255, 255, 255⟩, ⟨170, 170, 170, 255⟩, ⟨85, 85, 85, 255⟩, ⟨0, 0, 0, 255⟩⟩

/-- After RESET.HARD, with CT. -/
def start : State := { State.reset with params := { Config.paramsAtReset with colorTable := testColours } }

/-- LCDC = 0x91, LYC = WY = 200, in mode `m` at line `ly` with `c` cycles; STAT's upper bits are `stat`. -/
def running (m : Mode) (c : Nat) (ly stat : Byte) : State :=
  { start with lcdc := 0x91, lyc := 200, wy := 200, mode := m, stat := setModeBits stat m, cycles := BitVec.ofNat 32 c, ly := ly }

/-- A few fields of the state after a command, if it answers one. -/
def after {α : Type} (i : Instr) (s : State) (f : State → α) : Option α :=
  match exec i s with
  | .next t => some (f t)
  | _ => none

/-- The refusal a command ends in, if it does. -/
def refusal (i : Instr) (s : State) : Option Refusal :=
  match exec i s with
  | .refused r => some r
  | _ => none

/-! ### WellFormed: an ill-formed term for each check (30_encoding.md R100) -/

theorem test_wf_register_hole : (Instr.regRd 0xFF46).wellFormed = false := by decide
theorem test_wf_register_below : (Instr.regWr 0xFF3F 0).wellFormed = false := by decide
theorem test_wf_register_above : (Instr.regRd 0xFF4C).wellFormed = false := by decide
theorem test_wf_oam_read : (Instr.oamRd 0xFEA0).wellFormed = false := by decide
theorem test_wf_oam_write : (Instr.oamWr 0x00A0 0x11).wellFormed = false := by decide
theorem test_wf_frame : (Instr.frameRd 92160).wellFormed = false := by decide
theorem test_wf_edges :
    (Instr.regRd 0xFF40).wellFormed && (Instr.regWr 0x004B 1).wellFormed && (Instr.oamRd 0xFE9F).wellFormed &&
    (Instr.frameRd 92159).wellFormed = true := by decide

/-! ### Decode: one word of every constructor, bit by bit (30_encoding.md R91..R96) -/

theorem test_decode_step :
    decode 0b0001_0000000000000000000111001000 = .command (.step 456) := by decide
theorem test_decode_reset_hard :
    decode 0b0010_000000000000000000000000000_1 = .command .resetHard := by decide
theorem test_decode_reset_soft :
    decode 0b0010_000000000000000000000000000_0 = .command .resetSoft := by decide
theorem test_decode_post_boot :
    decode 0b0011_000000000000000000000000000_0 = .command .postBoot := by decide
theorem test_decode_reg_rd :
    decode 0b0100_0000_1111111101000001_00000000 = .command (.regRd 0xFF41) := by decide
theorem test_decode_reg_wr :
    decode 0b0101_0000_1111111101000000_10010001 = .command (.regWr 0xFF40 0x91) := by decide
theorem test_decode_vram_rd :
    decode 0b0110_0000_0000000011111111_00000000 = .command (.vramRd 0x00FF) := by decide
theorem test_decode_vram_wr :
    decode 0b0111_0000_1110000000000000_01011010 = .command (.vramWr 0xE000 0x5A) := by decide
theorem test_decode_oam_rd :
    decode 0b1000_0000_1111111010011111_00000000 = .command (.oamRd 0xFE9F) := by decide
theorem test_decode_oam_wr :
    decode 0b1001_0000_1111111010011111_00110011 = .command (.oamWr 0xFE9F 0x33) := by decide
theorem test_decode_dma :
    decode 0b1010_00000000000000000000_00010010 = .command (.dma 0x12) := by decide
theorem test_decode_frame_rd :
    decode 0b1011_00000000000_10110011111111111 = .command (.frameRd 92159) := by decide

/-- Vectors D. -/
theorem test_decode_reserved_opcode :
    [0x00000000, 0xC0000000, 0xD0000000, 0xE0000000, 0xF0000000].map decode =
      List.replicate 5 (.refuse .reservedOpcode) := by decide

/-- Vectors D, A11, A12 and A24, and bit 24 of a write. -/
theorem test_decode_reserved_field :
    [0x20000002, 0x21000001, 0x30000001, 0xB0020000, 0x40FF4101, 0x41FF4100, 0xA0000100, 0x51FF4000].map decode =
      List.replicate 8 (.refuse .reservedField) := by decide

/-- 30_encoding.md R105: the words of `OAM_ENTRY 1, 16, 8, 2, 0x80`. -/
theorem test_assemble_oam_entry :
    assemble [.oamEntry 1 16 8 2 0x80] = [0x90000410, 0x90000508, 0x90000602, 0x90000780] := by decide

/-! ### One step of each command -/

/-- Vector Y3: the wrap, with the OAM request before the LYC request. -/
theorem test_step_wrap :
    after (.step 456) { running .vblank 0 153 0x60 with lyc := 0, wy := 0 }
      (fun t => (t.mode, t.ly, t.stat, t.winFlag, t.requests)) =
      some (.oamSearch, 0, 0x66, true, [.stat, .stat]) := by decide

/-- Vectors G5 and G6: the VBLANK request is not gated, the STAT request is. -/
theorem test_step_gate :
    after (.step 204) (running .hblank 0 143 0x18) (fun t => (t.mode, t.ly, t.stat, t.requests)) =
      some (.vblank, 144, 0x19, [.vblank]) ∧
    after (.step 204) (running .hblank 0 143 0x10) (fun t => t.requests) = some [.vblank, .stat] := by decide

/-- Vector R-1. -/
theorem test_reset_hard :
    after .resetHard (running .draw 5 7 0x40) (fun t => (t.lcdc, t.stat, t.mode, t.cycles, t.ly)) =
      some (0, 0, .hblank, 0, 0) := by decide

/-- Vector R-3. -/
theorem test_reset_soft :
    after .resetSoft { running .draw 50 77 0x40 with winFlag := true, winLine := 9 }
      (fun t => (t.mode, t.cycles, t.ly, t.winFlag, t.winLine, t.stat)) = some (.draw, 0, 0, false, 0, 0x43) := by decide

/-- Vector R-2. -/
theorem test_post_boot :
    after .postBoot start (fun t => (t.lcdc, t.stat, t.bgp, t.obp0, t.mode, t.ly)) =
      some (0x91, 0x85, 0xFC, 0xFF, .vblank, 0) := by decide

/-- Vectors A9 and A10: WX reads 0 beside an LCDC of 0x91. -/
theorem test_reg_rd :
    after (.regRd 0xFF40) { start with lcdc := 0x91 } State.response = some (some 0x91) ∧
    after (.regRd 0xFF4B) { start with lcdc := 0x91 } State.response = some (some 0x00) := by decide

/-- Vectors A1 and A27: a write of STAT keeps the mode bits. -/
theorem test_reg_wr_stat :
    after (.regWr 0x0041 0x83) start State.stat = some 0x80 ∧
    after (.regWr 0xFF41 0xFF) (running .draw 0 0 0) State.stat = some 0xFF := by decide

/-- Vector A3: a write of LY changes nothing. -/
theorem test_reg_wr_ly : after (.regWr 0x0044 0x77) start State.ly = some 0 := by decide

/-- Vector A14: index 0x0000 and bus address 0xE000 are one byte. -/
theorem test_vram_rd : after (.vramRd 0xE000) { start with vram := [(0, 0x5A)] } State.response = some (some 0x5A) := by decide

/-- Vector A13; writing 0 takes the entry out again. -/
theorem test_vram_wr :
    after (.vramWr 0xE000 0x5A) start State.vram = some [(0, 0x5A)] ∧
    after (.vramWr 0xE000 0) { start with vram := [(0, 0x5A)] } State.vram = some [] := by decide

/-- Vector A17. -/
theorem test_oam_rd : after (.oamRd 0xFE9F) { start with oam := [(159, 0x33)] } State.response = some (some 0x33) := by decide

/-- Vector A16. -/
theorem test_oam_wr : after (.oamWr 0xFE9F 0x33) start State.oam = some [(159, 0x33)] := by decide

/-- Vector A21, for the two bytes of page 0x12 the test's bus fixes. -/
theorem test_dma :
    after (.dma 0x12) { start with params := { start.params with bus := [(0x1200, 0), (0x1201, 1)] } }
      (fun t => (memRead t.oam 1, t.busReads)) = some (1, 160) := by decide

/-- Vector L1-9: the published frame is read, not the working one. -/
theorem test_frame_rd :
    after (.frameRd 640) { start with doneBuf := [(640, 255)], work := [(640, 1)] } State.response = some (some 255) := by
  decide

/-- Vectors A5 to A8, A18 to A20, A26 and T10. -/
theorem test_refusals :
    [refusal (.regWr 0x0046 1) start, refusal (.regRd 0x0046) start, refusal (.regRd 0x003F) start,
     refusal (.regRd 0x004C) start] = List.replicate 4 (some .noRegister) ∧
    [refusal (.oamRd 0xFEA0) start, refusal (.oamWr 0x00A0 0x11) start, refusal (.oamRd 0x00FE) start] =
      List.replicate 3 (some .outsideOam) ∧
    refusal (.frameRd 92160) start = some .outsideFrame ∧
    refusal (.step 10) (running .oamSearch 4294967286 0 0) = some .cycleOverflow ∧
    refusal (.step 9) (running .oamSearch 4294967286 0 0) = none := by decide

/-- 42_bg_window.md R166. -/
theorem test_render_fault : exec (.step 172) (running .draw 0 144 0) = .fault .renderOutsideFrame := rfl

/-- A step takes the first word and leaves the rest. -/
theorem test_step_takes_one_word :
    step { start with commands := [0x40FF4000, 0x20000001] } =
      .next { start with commands := [0x20000001], response := some 0 } := rfl

/-! ### The scan and the three passes -/

/-- Vector O2: order by x, then index. -/
theorem test_scan_order :
    (oamScan { start with
        lcdc := 0x91, ly := 1
        oam := [(0, 16), (1, 50), (4, 16), (5, 20), (8, 16), (9, 50), (12, 17)] }).sel.map SelEntry.index =
      [3, 1, 0, 2] := by decide

/-- Vector O5: the two ends of the visible rows, in both heights. -/
theorem test_scan_visible :
    [visibleOn 8 0 ⟨0, 8, 0, 0, 0⟩, visibleOn 16 0 ⟨0, 1, 0, 0, 0⟩, visibleOn 16 0 ⟨0, 0, 0, 0, 0⟩,
     visibleOn 16 7 ⟨0, 8, 0, 0, 0⟩, visibleOn 16 8 ⟨0, 8, 0, 0, 0⟩, visibleOn 8 143 ⟨0, 159, 0, 0, 0⟩,
     visibleOn 8 142 ⟨0, 159, 0, 0, 0⟩] = [false, true, false, true, false, true, false] := by decide

/-- Vector B1. -/
theorem test_tile_addresses :
    [0x00, 0x01, 0x7F, 0x80, 0xFF].map (bgTileAddr 0x81) = [0x1000, 0x1010, 0x17F0, 0x0800, 0x0FF0] ∧
    [0x00, 0x01, 0x7F, 0x80, 0xFF].map (bgTileAddr 0x91) = [0x0000, 0x0010, 0x07F0, 0x0800, 0x0FF0] := by decide

/-- Vector B3: the scroll wraps. -/
theorem test_background_scroll :
    [5, 6].map (bgIndex { start with
      lcdc := 0x91, ly := 10, scx := 250, scy := 250
      vram := [(0x0018, 0xFF), (0x0029, 0xFF), (0x1800, 1), (0x181F, 2)] }) = [2, 1] := by decide

/-- Vectors W5 and W6: the window's column origin, and its row from win_line. -/
theorem test_window_origin :
    [9, 10, 17, 18].map (fun px => (linePixel { start with
      lcdc := 0xF1, wx := 17, winFlag := true
      vram := [(0x0010, 0xFF), (0x0021, 0xFF), (0x1C00, 1), (0x1C01, 2)] } px).ci) = [0, 1, 1, 2] ∧
    [2, 3, 4].map (fun px => (linePixel { start with
      lcdc := 0xB1, ly := 40, wx := 7, winFlag := true, winLine := 3
      vram := [(0x0010, 0x80), (0x0012, 0x40), (0x0014, 0x20), (0x0016, 0x10), (0x1800, 1)] } px).ci) = [0, 1, 0] := by
  decide

/-- Vector W1: the edge at WX = 166. -/
theorem test_window_edge :
    [(166 : Byte), 167].map (fun wx => windowDrawn { start with lcdc := 0xF1, wx := wx, winFlag := true }) =
      [true, false] := by decide

/-- Vectors S6 and S7: 8×16 with YFLIP; the priority test against SHADOW. -/
theorem test_sprite_forms :
    (linePixel { start with
      lcdc := 0x97, bgp := 0xE4, obp0 := 0xE4, ly := 9, vram := [(0x002C, 0xFF)], sel := [⟨0, 16, 8, 3, 0x40⟩] } 0).colour.r
      = 170 ∧
    [3, 4].map (fun px => (linePixel { start with
      lcdc := 0x93, bgp := 0xE4, obp0 := 0xE4
      vram := [(0x0010, 0xFF), (0x0011, 0xFF), (0x0020, 0x0F), (0x1800, 2)], sel := [⟨0, 16, 8, 1, 0x80⟩] } px).colour.r)
      = [0, 170] := by decide

/-- Vectors S9 and S12: the first element wins where it is opaque; the columns of x = 161 and x = 168. -/
theorem test_sprite_order_and_edges :
    [3, 4].map (fun px => (linePixel { start with
      lcdc := 0x93, bgp := 0xE4, obp0 := 0xE4, vram := [(0x0010, 0x0F), (0x0021, 0xFF)]
      sel := [⟨0, 16, 8, 1, 0⟩, ⟨1, 16, 8, 2, 0⟩] } px).colour.r) = [85, 170] ∧
    [152, 153, 159].map (spriteCovers ⟨0, 16, 161, 1, 0⟩) = [false, true, true] ∧
    spriteCovers ⟨0, 16, 168, 1, 0⟩ 159 = false := by decide

/-! ### Witnesses: the hypotheses of each statement, met together -/

theorem witness_EncodeOfDecode : decode 0x100001C8 = .command (.step 456) := by decide

theorem witness_OpcodeRowsDisjoint : ∃ p ∈ opcodeMap, rowMatches 0x20000001 p = true ∧ p.mnemonic = "RESET.HARD" := by
  decide

theorem witness_ReservedWordsRefusedByName :
    ({ start with commands := [0] }.commands = 0 :: [] ∧ decode 0 = .refuse .reservedOpcode) ∧
    ({ start with commands := [0x30000001] }.commands = 0x30000001 :: [] ∧
      decode 0x30000001 = .refuse .reservedField) := by decide

theorem witness_StepRunsNextCommand :
    ({ start with commands := [0x100001C8] }.commands = 0x100001C8 :: [] ∧ decode 0x100001C8 = .command (.step 456)) ∧
    start.commands = [] ∧ decodeTableWord 32 0x20000001 = some .resetHard := by decide

theorem witness_FaultsExactlyOnRenderOutsideFrame :
    Running (running .draw 0 144 0) ∧ (running .draw 0 144 0).mode = .draw ∧
    172 ≤ (running .draw 0 144 0).cycles.toNat + (172 : BitVec 28).toNat ∧ 144 ≤ (running .draw 0 144 0).ly.toNat := by
  unfold Running; decide

/-- One state for each way a STEP completes, at the ends of the ranges. -/
theorem witness_WellFormedCommandsComplete :
    (Instr.step 9).wellFormed = true ∧
    lcdEn start.lcdc = false ∧
    ((running .oamSearch 4294967286 0 0).cycles.toNat + (9 : BitVec 28).toNat < 2 ^ 32 ∧
      (running .oamSearch 4294967286 0 0).mode ≠ .draw) ∧
    ((running .draw 162 144 0).cycles.toNat + (9 : BitVec 28).toNat < 172) ∧
    ((running .draw 163 143 0).cycles.toNat + (9 : BitVec 28).toNat = 172 ∧ (running .draw 163 143 0).ly.toNat < 144) ∧
    { running .draw 500 144 0 with wasDisabled := true }.wasDisabled = true := by decide

theorem witness_EverythingReadsZeroAfterHardReset :
    (Instr.regRd 0xFF4B).wellFormed = true ∧ (Instr.vramRd 0x9FFF).wellFormed = true ∧
    (Instr.oamRd 0xFE9F).wellFormed = true ∧ (Instr.frameRd 92159).wellFormed = true := by decide

/-- The address hypothesis of every register statement, in both forms an address may take. -/
theorem witness_RegisterStatements :
    (0x0040 : BitVec 16).toNat % 256 = (regAddr .lcdc).toNat % 256 ∧
    (0xFF4B : BitVec 16).toNat % 256 = (regAddr .wx).toNat % 256 ∧ Reg.wx ≠ .stat ∧ Reg.wx ≠ .ly ∧ Reg.wx ≠ .lcdc ∧
    (0xFF41 : BitVec 16).toNat % 256 = 0x41 ∧ (0x0044 : BitVec 16).toNat % 256 = 0x44 := by decide

/-- OamReadRespondsByte and OamWriteChangesOneByte, at the last offset. -/
theorem witness_OamStatements : (0xFE9F : BitVec 16).toNat % 256 < 160 := by decide

theorem witness_DmaFillsObjectTable :
    [(0x129F, (7 : Byte))].find? (fun c => c.1 == (0x12 : Byte).toNat * 256 + 159) =
      some ((0x12 : Byte).toNat * 256 + 159, 7) := by decide

/-- The last byte of the frame. -/
theorem witness_FrameReadRespondsDoneByte : (92159 : BitVec 17).toNat = 4 * (160 * 143 + 159) + 3 := by decide

/-- ReadsChangeOnlyThePorts, AccessCommandsKeepTheClock and ParametersAndCommandsAreNeverWritten: each read completes. -/
theorem witness_ReadStatements :
    (after (.regRd 0xFF4B) start id).isSome ∧ (after (.vramRd 0x1FFF) start id).isSome ∧
    (after (.oamRd 0xFE9F) start id).isSome ∧ (after (.frameRd 92159) start id).isSome := by decide

/-- VideoMemoryWritersAreTheHosts: commands that do change VRAM and OAM. -/
theorem witness_VideoMemoryWritersAreTheHosts :
    after (.vramWr 0 1) start State.vram = some [(0, 1)] ∧ after (.oamWr 0 1) start State.oam = some [(0, 1)] := by decide

/-- DoneChangesOnlyAtPublishOrHardReset: a step that publishes a WORK unlike DONE. -/
theorem witness_DoneChangesOnlyAtPublishOrHardReset :
    after (.step 456) { running .vblank 0 153 0 with work := [(0, 1)] } (fun t => (t.mode, t.doneBuf)) =
      some (.oamSearch, [(0, 1)]) := by decide

/-- DisplayOffHoldsAndWakes, with vector L1-2: the re-enable soft reset, then the cycles of this STEP. -/
theorem witness_DisplayOffHoldsAndWakes :
    let s := { running .hblank 100 1 0 with wasDisabled := true, lyc := 0, wy := 0 }
    lcdEn start.lcdc = false ∧ lcdEn s.lcdc = true ∧ s.wasDisabled = true ∧
    after (.step 5) s (fun t => (t.ly, t.cycles, t.stat, t.winFlag, t.wasDisabled)) =
      some (0, 5, 0x04, true, false) := by decide

/-- One cycle short of each duration. -/
theorem witness_BelowThresholdOnlyCounts :
    Running (running .oamSearch 0 0 0) ∧
    (running .oamSearch 0 0 0).cycles.toNat + (79 : BitVec 28).toNat < duration .oamSearch ∧
    (running .draw 0 144 0).cycles.toNat + (171 : BitVec 28).toNat < duration .draw ∧
    (running .hblank 0 0 0).cycles.toNat + (203 : BitVec 28).toNat < duration .hblank ∧
    (running .vblank 0 153 0).cycles.toNat + (455 : BitVec 28).toNat < duration .vblank := by
  unfold Running; decide

/-- OamCompletionScansAndDraws, at the threshold and at the largest count. -/
theorem witness_OamCompletionScansAndDraws :
    Running (running .oamSearch 79 0 0) ∧ (running .oamSearch 79 0 0).mode = .oamSearch ∧
    80 ≤ (running .oamSearch 79 0 0).cycles.toNat + (1 : BitVec 28).toNat ∧
    (running .oamSearch 4294967286 0 0).cycles.toNat + (9 : BitVec 28).toNat < 2 ^ 32 := by
  unfold Running; decide

/-- DrawCompletionRendersLine, with vector G3. -/
theorem witness_DrawCompletionRendersLine :
    Running (running .draw 0 143 0) ∧ (running .draw 0 143 0).mode = .draw ∧ (running .draw 0 143 0).ly.toNat < 144 ∧
    172 ≤ (running .draw 0 143 0).cycles.toNat + (172 : BitVec 28).toNat ∧
    (running .draw 0 143 0).cycles.toNat + (172 : BitVec 28).toNat < 2 ^ 32 ∧
    after (.step 172) (running .draw 0 5 0x08) (fun t => (t.mode, t.stat, t.requests)) =
      some (.hblank, 0x08, [.stat]) := by
  unfold Running; decide

theorem witness_HblankCompletionEntersOam :
    Running (running .hblank 0 142 0) ∧ (running .hblank 0 142 0).mode = .hblank ∧
    204 ≤ (running .hblank 0 142 0).cycles.toNat + (204 : BitVec 28).toNat ∧
    (running .hblank 0 142 0).cycles.toNat + (204 : BitVec 28).toNat < 2 ^ 32 ∧
    (running .hblank 0 142 0).ly.toNat ≠ 143 := by
  unfold Running; decide

theorem witness_HblankCompletionEntersVblank :
    Running (running .hblank 203 143 0) ∧ (running .hblank 203 143 0).mode = .hblank ∧
    204 ≤ (running .hblank 203 143 0).cycles.toNat + (1 : BitVec 28).toNat ∧
    (running .hblank 203 143 0).cycles.toNat + (1 : BitVec 28).toNat < 2 ^ 32 ∧
    (running .hblank 203 143 0).ly.toNat = 143 := by
  unfold Running; decide

/-- VblankLineMovesOn at its last line, VblankWrapPublishesFrame at its first. -/
theorem witness_VblankStatements :
    Running (running .vblank 0 152 0) ∧ (running .vblank 0 152 0).mode = .vblank ∧
    456 ≤ (running .vblank 0 152 0).cycles.toNat + (456 : BitVec 28).toNat ∧
    (running .vblank 0 152 0).cycles.toNat + (456 : BitVec 28).toNat < 2 ^ 32 ∧
    (running .vblank 0 152 0).ly.toNat < 153 ∧
    Running (running .vblank 0 153 0) ∧ (running .vblank 0 153 0).mode = .vblank ∧
    456 ≤ (running .vblank 0 153 0).cycles.toNat + (456 : BitVec 28).toNat ∧
    (running .vblank 0 153 0).cycles.toNat + (456 : BitVec 28).toNat < 2 ^ 32 ∧
    153 ≤ (running .vblank 0 153 0).ly.toNat := by
  unfold Running; decide

/-- The statements about any enabled STEP that answers a next state: AtMostOneTransitionPerStep, LycFlagFollowsCompare,
WindowFlagIsSticky, StepForcesModeBits, StatGateBlocksStatRequests (its gate closed: vector G1) and RequestListOfAStep;
with vector T4, one transition and the rest carried. -/
theorem witness_EnabledStepStatements :
    lcdEn (running .hblank 200 5 0x28).lcdc = true ∧ gateOpen (running .hblank 200 5 0x28) = false ∧
    after (.step 4) (running .hblank 200 5 0x28) (fun t => (t.mode, t.requests)) = some (.oamSearch, []) ∧
    after (.step 300) (running .oamSearch 0 0 0) (fun t => (t.mode, t.cycles, t.stat)) =
      some (.draw, 220, 0x03) := by decide

/-- VisibleLineCadence at its first and last line; FrameCadence. -/
theorem witness_CadenceStatements :
    Running (running .oamSearch 0 0 0) ∧ (running .oamSearch 0 0 0).mode = .oamSearch ∧
    (running .oamSearch 0 0 0).cycles = 0 ∧ (running .oamSearch 0 0 0).ly = 0 ∧
    Running (running .oamSearch 0 143 0) ∧ (running .oamSearch 0 143 0).mode = .oamSearch ∧
    (running .oamSearch 0 143 0).cycles = 0 ∧ (running .oamSearch 0 143 0).ly.toNat ≤ 143 := by
  unfold Running; decide

theorem witness_DisciplinedStepsOweNoTransition :
    Running (running .oamSearch 79 0 0) ∧ BelowDuration (running .oamSearch 79 0 0) ∧ (80 : BitVec 28).toNat ≤ 80 ∧
    after (.step 80) (running .oamSearch 79 0 0) (fun t => t.mode) = some .draw := by
  unfold Running BelowDuration; decide

/-- ScanKeepsFirstTenVisible: vector O3, where entry 10 is visible and is the first one dropped. -/
theorem witness_ScanKeepsFirstTenVisible :
    let s := { start with lcdc := 0x91, ly := 5, oam := (List.range 11).map (fun i => (4 * i, (16 : Byte))) }
    entryVisible s 9 = true ∧ ((List.range 9).filter (entryVisible s)).length = 9 ∧
    entryVisible s 10 = true ∧ ((List.range 10).filter (entryVisible s)).length = 10 := by decide

/-- ScanOrdersByXThenIndex: a first element that draws at the last column it covers. -/
theorem witness_ScanOrdersByXThenIndex :
    let s := { start with lcdc := 0x93, oam := [(0, 16), (1, 8), (2, 1)], vram := [(0x0010, 0xFF)] }
    (oamScan s).sel = ⟨0, 16, 8, 1, 0⟩ :: [] ∧ objEn s.lcdc = true ∧ s.params.layerObj = true ∧
    spriteShows (oamScan s) 7 ⟨0, 16, 8, 1, 0⟩ = true := by decide

/-- ShadowOfRenderedLine and ColoursOfRenderedLine: columns where the window shows, where the background does, and where
a sprite does. -/
theorem witness_PixelStatements :
    let s := { start with
      lcdc := 0xF3, wx := 17, winFlag := true, bgp := 0xE4, obp0 := 0xE4, vram := [(0x0010, 0xFF), (0x1C00, 1)]
      sel := [⟨0, 16, 8, 1, 0⟩] }
    windowShows s 159 = true ∧ windowShows s 9 = false ∧ shadowIndexAt s 10 = 1 ∧
    spriteShows s 0 ⟨0, 16, 8, 1, 0⟩ = true ∧ spriteShows s 8 ⟨0, 16, 8, 1, 0⟩ = false ∧ shadeShownAt s 0 = 1 := by decide

/-- RenderWritesOneLine: an address on each side of line 1 of SHADOW and of WORK. -/
theorem witness_RenderWritesOneLine :
    159 < 160 * (1 : Byte).toNat ∧ 160 * (1 : Byte).toNat + 160 ≤ 320 ∧ 639 < 640 * (1 : Byte).toNat ∧
    640 * (1 : Byte).toNat + 640 ≤ 1280 := by decide

/-- StepKeepsInvariant: a state with a selection and written memories, about to run `STEP 172`. -/
theorem witness_StepKeepsInvariant :
    let s := { running .draw 0 3 0 with
      vram := [(16, 1)], oam := [(0, 19), (1, 8)], sel := [⟨0, 19, 8, 0, 0⟩], commands := [0x100000AC] }
    Inv s ∧ ∃ t, step s = .next t := by
  refine ⟨⟨rfl, rfl, ⟨?_, ?_, ?_, ?_, ?_⟩, ⟨?_, ?_⟩⟩, ⟨_, rfl⟩⟩ <;> first | decide | exact List.pairwise_singleton _ _

/-- InFrameStepsNeverFault and WindowRowsNeverExceedLines: the last visible line, every row of it used. -/
theorem witness_FrameStatements : WindowBounded { running .draw 0 143 0 with winLine := 143 } :=
  ⟨⟨by decide, fun _ => by decide, fun h => absurd h (by decide), ⟨by decide, fun h => absurd rfl h⟩⟩,
    by decide, fun _ _ => by decide, fun _ h => absurd h (by decide), rfl⟩

end Sys2Proof.Machine
end

section
/-! What a command and a step can answer, said once, and what a STEP never writes (10_state.md R43, R44, R48, R50). -/

namespace Sys2Proof.Machine

/-- `Answers s i t`: command `i`, performed in `s` inside its contract, answers `t` (the column "rule" of 30_encoding.md
R96). A STEP's own cases are those of `execStep_next_cases`. -/
inductive Answers (s : State) : Instr → State → Prop
  | step {n t} (h : execStep n s = .next t) : Answers s (.step n) t
  | resetHard : Answers s .resetHard (hardReset (clearOutputs s))
  | resetSoft : Answers s .resetSoft (softReset (clearOutputs s))
  | postBoot :
      Answers s .postBoot { loadPostBootRegs (clearOutputs s) s.params.postBoot with mode := s.params.postBootMode }
  | regRd {addr r} (h : regOfAddr addr = some r) : Answers s (.regRd addr) (respond (readReg s r) (clearOutputs s))
  | regWr {addr data r} (h : regOfAddr addr = some r) :
      Answers s (.regWr addr data) (hostWriteReg (clearOutputs s) data r)
  | vramRd {addr} : Answers s (.vramRd addr) (respond (memRead s.vram (vramIndex addr)) (clearOutputs s))
  | vramWr {addr data} :
      Answers s (.vramWr addr data) { clearOutputs s with vram := memWrite s.vram (vramIndex addr) data }
  | oamRd {addr} (h : oamOffset addr < Config.oamSize) :
      Answers s (.oamRd addr) (respond (memRead s.oam (oamOffset addr)) (clearOutputs s))
  | oamWr {addr data} (h : oamOffset addr < Config.oamSize) :
      Answers s (.oamWr addr data) { clearOutputs s with oam := memWrite s.oam (oamOffset addr) data }
  | dma {page} :
      Answers s (.dma page)
        { clearOutputs s with
          oam := memWriteBlock s.oam 0 (dmaBytes page s)
          busReads := s.busReads + Config.oamSize }
  | frameRd {idx : BitVec 17} (h : idx.toNat < Config.frameSize) :
      Answers s (.frameRd idx) (respond (memRead s.doneBuf idx.toNat) (clearOutputs s))

theorem execRegRd_next {addr : BitVec 16} {s t : State} (h : execRegRd addr s = .next t) :
    ∃ r, regOfAddr addr = some r ∧ respond (readReg s r) (clearOutputs s) = t := by
  unfold execRegRd at h
  split at h
  next r hr => exact ⟨r, hr, by simpa using h⟩
  next => exact absurd h (by simp)

theorem execRegWr_next {addr : BitVec 16} {data : Byte} {s t : State} (h : execRegWr addr data s = .next t) :
    ∃ r, regOfAddr addr = some r ∧ hostWriteReg (clearOutputs s) data r = t := by
  unfold execRegWr at h
  split at h
  next r hr => exact ⟨r, hr, by simpa using h⟩
  next => exact absurd h (by simp)

/-- A command under the guard of 30_encoding.md R100 that answers had its operand below the limit. -/
theorem lt_and_eq_of_guard_next {limit k : Nat} {r : Refusal} {u t : State}
    (h : (if limit ≤ k then (.refused r : Host.Outcome State Fault Refusal) else .next u) = .next t) :
    k < limit ∧ u = t := by
  split at h
  next => exact absurd h (by simp)
  next hk => exact ⟨Nat.not_le.1 hk, by simpa using h⟩

theorem answers_of_exec {i : Instr} {s t : State} (h : exec i s = .next t) : Answers s i t := by
  cases i with
  | step n => exact .step h
  | resetHard => cases h; exact .resetHard
  | resetSoft => cases h; exact .resetSoft
  | postBoot => cases h; exact .postBoot
  | regRd addr => obtain ⟨r, hr, rfl⟩ := execRegRd_next h; exact .regRd hr
  | regWr addr data => obtain ⟨r, hr, rfl⟩ := execRegWr_next h; exact .regWr hr
  | vramRd addr => cases h; exact .vramRd
  | vramWr addr data => cases h; exact .vramWr
  | oamRd addr => obtain ⟨hlt, rfl⟩ := lt_and_eq_of_guard_next h; exact .oamRd hlt
  | oamWr addr data => obtain ⟨hlt, rfl⟩ := lt_and_eq_of_guard_next h; exact .oamWr hlt
  | dma page => cases h; exact .dma
  | frameRd idx => obtain ⟨hlt, rfl⟩ := lt_and_eq_of_guard_next h; exact .frameRd hlt

/-- A step that answers waited with no word presented, or took the first word and performed its command. -/
theorem step_next_cases {s t : State} (h : step s = .next t) :
    (s.commands = [] ∧ t = s) ∨
    ∃ w rest i, s.commands = w :: rest ∧ decode w = .command i ∧ Answers { s with commands := rest } i t := by
  unfold step at h
  split at h
  next hc => exact .inl ⟨hc, by simpa using h.symm⟩
  next w rest hc =>
    split at h
    next i hi => exact .inr ⟨w, rest, i, hc, hi, answers_of_exec h⟩
    next => exact absurd h (by simp)

/-- HBLANK completes into VBLANK at line 144, and into OAM at every other line (40_step.md R122 to R125). -/
theorem completeHblank_cases (allowed : Bool) (s : State) :
    (s.ly + 1 = 144 ∧ completeHblank allowed s =
      requestStatIf (vblInt s.stat && allowed) (request .vblank { s with ly := s.ly + 1, mode := .vblank })) ∨
    (s.ly + 1 ≠ 144 ∧ completeHblank allowed s =
      requestStatIf (oamInt s.stat && allowed) { s with ly := s.ly + 1, mode := .oamSearch }) :=
  (em (s.ly + 1 = 144)).imp (fun h => ⟨h, if_pos h⟩) (fun h => ⟨h, if_neg h⟩)

/-- A VBLANK line completes by the wrap from line 153 on, and moves LY on before it (40_step.md R126, R127). -/
theorem completeVblank_cases (allowed : Bool) (s : State) :
    (153 < s.ly.toNat + 1 ∧ completeVblank allowed s =
      requestStatIf (oamInt s.stat && allowed)
        { publish s with ly := 0, winLine := 0, winFlag := false, mode := .oamSearch }) ∨
    (¬ 153 < s.ly.toNat + 1 ∧ completeVblank allowed s = { s with ly := s.ly + 1 }) :=
  (em (153 < s.ly.toNat + 1)).imp (fun h => ⟨h, if_pos h⟩) (fun h => ⟨h, if_neg h⟩)

/-! ### What a STEP never writes -/

/-- `t` agrees with `s` on everything outside the reach of a STEP: the registers but STAT and LY, VRAM and OAM
(10_state.md R43), the commands still to come, the parameters (R48) and the count of bus reads. -/
structure StepFrame (s t : State) : Prop where
  lcdc     : t.lcdc = s.lcdc
  scy      : t.scy = s.scy
  scx      : t.scx = s.scx
  lyc      : t.lyc = s.lyc
  bgp      : t.bgp = s.bgp
  obp0     : t.obp0 = s.obp0
  obp1     : t.obp1 = s.obp1
  wy       : t.wy = s.wy
  wx       : t.wx = s.wx
  vram     : t.vram = s.vram
  oam      : t.oam = s.oam
  commands : t.commands = s.commands
  params   : t.params = s.params
  busReads : t.busReads = s.busReads

theorem stepFrame_tableStart (n : BitVec 28) (s : State) : StepFrame s (tableStart n s) := by
  constructor <;> simp

theorem stepFrame_completeHblank (allowed : Bool) (s : State) : StepFrame s (completeHblank allowed s) := by
  obtain ⟨-, heq⟩ | ⟨-, heq⟩ := completeHblank_cases allowed s <;> rw [heq] <;> constructor <;> rfl

theorem stepFrame_completeVblank (allowed : Bool) (s : State) : StepFrame s (completeVblank allowed s) := by
  obtain ⟨-, heq⟩ | ⟨-, heq⟩ := completeVblank_cases allowed s <;> rw [heq] <;> constructor <;> rfl

theorem StepFrame.trans {s t u : State} (h : StepFrame s t) (k : StepFrame t u) : StepFrame s u where
  lcdc := k.lcdc.trans h.lcdc
  scy := k.scy.trans h.scy
  scx := k.scx.trans h.scx
  lyc := k.lyc.trans h.lyc
  bgp := k.bgp.trans h.bgp
  obp0 := k.obp0.trans h.obp0
  obp1 := k.obp1.trans h.obp1
  wy := k.wy.trans h.wy
  wx := k.wx.trans h.wx
  vram := k.vram.trans h.vram
  oam := k.oam.trans h.oam
  commands := k.commands.trans h.commands
  params := k.params.trans h.params
  busReads := k.busReads.trans h.busReads

theorem stepFrame_transition {allowed : Bool} {s t : State} (h : transition allowed s = .next t) : StepFrame s t := by
  obtain ⟨-, rfl⟩ | ⟨-, -, rfl⟩ | ⟨-, -, -, rfl⟩ | ⟨-, -, rfl⟩ | ⟨-, -, rfl⟩ := transition_next_cases h
  · constructor <;> rfl
  · constructor <;> rfl
  · constructor <;> rfl
  · exact { stepFrame_completeHblank allowed (payDuration s) with }
  · exact { stepFrame_completeVblank allowed (payDuration s) with }

theorem stepFrame_execStep {n : BitVec 28} {s t : State} (h : execStep n s = .next t) : StepFrame s t := by
  obtain ⟨-, rfl⟩ | ⟨-, -, u, hu, rfl⟩ := execStep_next_cases h
  · constructor <;> rfl
  · exact { (stepFrame_tableStart n s).trans (stepFrame_transition hu) with }

/-- Settles O27: every command but the writers named answers a state with the VRAM and the OAM it found. -/
theorem videoMemoryWritersAreTheHosts : Obligations.VideoMemoryWritersAreTheHosts := by
  intro i s t h
  cases answers_of_exec h with
  | step hs =>
    have frame := stepFrame_execStep hs
    exact ⟨absurd frame.vram, absurd frame.oam⟩
  | resetHard => exact ⟨fun _ => .inr rfl, fun _ => .inr (.inr rfl)⟩
  | vramWr => exact ⟨fun _ => .inl ⟨_, _, rfl⟩, absurd rfl⟩
  | oamWr => exact ⟨absurd rfl, fun _ => .inl ⟨_, _, rfl⟩⟩
  | dma => exact ⟨absurd rfl, fun _ => .inr (.inl ⟨_, rfl⟩)⟩
  | regWr => exact ⟨absurd (hostWriteReg_vram _ _ _), absurd (hostWriteReg_oam _ _ _)⟩
  | resetSoft | postBoot | regRd | vramRd | oamRd | frameRd => exact ⟨absurd rfl, absurd rfl⟩

/-- Settles O29: no command's answer touches the parameters or the command stream, and DMA's alone counts bus reads. -/
theorem parametersAndCommandsAreNeverWritten : Obligations.ParametersAndCommandsAreNeverWritten := by
  intro i s t h
  cases answers_of_exec h with
  | step hs =>
    have frame := stepFrame_execStep hs
    exact ⟨frame.params, frame.commands, fun _ => frame.busReads⟩
  | regWr => exact ⟨hostWriteReg_params _ _ _, hostWriteReg_commands _ _ _, fun _ => hostWriteReg_busReads _ _ _⟩
  | dma => exact ⟨rfl, rfl, fun hdma => absurd rfl (hdma _)⟩
  | resetHard | resetSoft | postBoot | regRd | vramRd | vramWr | oamRd | oamWr | frameRd =>
    exact ⟨rfl, rfl, fun _ => rfl⟩

end Sys2Proof.Machine
end

section
/-! A host write of STAT (10_state.md R25, 44_access.md R227). -/

namespace Sys2Proof.Machine

/-- ADDR selects a register by its low byte alone (44_access.md R225). -/
theorem regOfAddr_congr {a b : BitVec 16} (h : a.toNat % 256 = b.toNat % 256) : regOfAddr a = regOfAddr b := by
  have hlow : (lowByte a).toNat = (lowByte b).toNat :=
    (oamOffset_eq_mod a).trans (h.trans (oamOffset_eq_mod b).symm)
  unfold regOfAddr
  rw [hlow]

theorem regOfAddr_eq_some {a : BitVec 16} {r : Reg} (h : a.toNat % 256 = (regAddr r).toNat % 256) :
    regOfAddr a = some r :=
  (regOfAddr_congr h).trans (regOfAddr_regAddr r)

theorem exec_regWr_of_regOfAddr {a : BitVec 16} {r : Reg} (h : regOfAddr a = some r) (v : Byte) (s : State) :
    exec (.regWr a v) s = .next (hostWriteReg (clearOutputs s) v r) := by
  simp [exec, execRegWr, h]

/-- A host write of STAT keeps bits 1..0. -/
theorem getLsbD_hostWriteStat_of_lt (stat v : Byte) {i : Nat} (hi : i < 2) :
    (hostWriteStat stat v).getLsbD i = stat.getLsbD i := by
  simpa [statMode, hi] using congrArg (·.getLsbD i) (statMode_hostWriteStat stat v)

/-- Settles O17: bits 7..2 come from the written byte and bits 1..0 from STAT, and STAT is all that is written. -/
theorem regWriteStatKeepsModeBits : Obligations.RegWriteStatKeepsModeBits := by
  intro s a v ha
  refine ⟨_, exec_regWr_of_regOfAddr (r := .stat) (regOfAddr_eq_some ha) v s, fun k => ?_, rfl, rfl, rfl⟩
  split
  next hk => exact getLsbD_hostWriteStat_of_lt s.stat v hk
  next hk => exact getLsbD_hostWriteStat s.stat v k (Nat.not_lt.1 hk)

end Sys2Proof.Machine
end

section
/-! The invariant `Inv`: it holds at reset and every step keeps it. The mode bits are forced last in a STEP, so its parts
are followed through the table one by one. -/

namespace Sys2Proof.Machine

/-! ### The selection a scan makes (41_oam_scan.md R153, R154) -/

/-- The scan finds its entries in the order of their table index (41_oam_scan.md R150). -/
theorem scanFound_pairwise_index (s : State) : (scanFound s).Pairwise (fun e f => e.index < f.index) := by
  have hall : ((List.finRange 40).map (oamEntry s.oam)).Pairwise (fun e f => e.index < f.index) :=
    List.pairwise_map.2 (List.pairwise_lt_finRange 40)
  exact (hall.filter _).sublist (List.take_sublist _ _)

/-- An insertion by x puts an element of lower index before those of equal x, so priority order is kept. -/
theorem orderedInsert_pairwise_precedes {e : SelEntry} {l : List SelEntry} (hl : l.Pairwise Precedes)
    (he : ∀ f ∈ l, e.index < f.index) :
    (l.orderedInsert (fun e f => e.x.toNat ≤ f.x.toNat) e).Pairwise Precedes := by
  induction l with
  | nil => exact List.pairwise_singleton _ _
  | cons b l ih =>
    obtain ⟨hb, hl'⟩ := List.pairwise_cons.1 hl
    rw [List.orderedInsert_cons]
    split
    next hle =>
      refine List.pairwise_cons.2 ⟨fun f hf => ?_, hl⟩
      have hx : e.x.toNat ≤ f.x.toNat := by
        rcases List.mem_cons.1 hf with rfl | hf'
        · exact hle
        · rcases hb f hf' with hlt | ⟨heq, -⟩ <;> omega
      exact (Nat.lt_or_eq_of_le hx).imp_right fun heq => ⟨heq, he f hf⟩
    next hnle =>
      refine List.pairwise_cons.2 ⟨fun f hf => ?_, ih hl' fun f hf => he f (List.mem_cons_of_mem _ hf)⟩
      rcases (List.mem_orderedInsert _).1 hf with rfl | hf'
      · exact .inl (Nat.not_le.1 hnle)
      · exact hb f hf'

/-- The stable sort by x orders by x, then index (41_oam_scan.md R154). -/
theorem sortByX_pairwise_precedes {found : List SelEntry} (h : found.Pairwise (fun e f => e.index < f.index)) :
    (sortByX found).Pairwise Precedes := by
  induction found with
  | nil => exact .nil
  | cons e l ih =>
    obtain ⟨he, hl⟩ := List.pairwise_cons.1 h
    exact orderedInsert_pairwise_precedes (ih hl) fun f hf => he f (mem_sortByX.1 hf)

theorem selOrdered_oamScan (s : State) : SelOrdered (oamScan s).sel where
  bounded := (length_sortByX _).trans_le (length_scanFound_le s)
  ordered := sortByX_pairwise_precedes (scanFound_pairwise_index s)

theorem selOrdered_nil : SelOrdered [] := ⟨Nat.zero_le _, .nil⟩

/-! ### The table of a STEP -/

@[simp] theorem completeHblank_sel (allowed : Bool) (s : State) : (completeHblank allowed s).sel = s.sel := by
  obtain ⟨-, heq⟩ | ⟨-, heq⟩ := completeHblank_cases allowed s <;> simp [heq]

@[simp] theorem completeVblank_sel (allowed : Bool) (s : State) : (completeVblank allowed s).sel = s.sel := by
  obtain ⟨-, heq⟩ | ⟨-, heq⟩ := completeVblank_cases allowed s <;> simp [heq]

theorem selOrdered_transition {allowed : Bool} {s t : State} (hs : SelOrdered s.sel)
    (h : transition allowed s = .next t) : SelOrdered t.sel := by
  obtain ⟨-, rfl⟩ | ⟨-, -, rfl⟩ | ⟨-, -, -, rfl⟩ | ⟨-, -, rfl⟩ | ⟨-, -, rfl⟩ := transition_next_cases h
  · exact hs
  · exact selOrdered_oamScan (payDuration s)
  · exact hs
  · rw [completeHblank_sel]; exact hs
  · rw [completeVblank_sel]; exact hs

theorem spacesCanonical_tableStart {s : State} (h : SpacesCanonical s) (n : BitVec 28) :
    SpacesCanonical (tableStart n s) := by
  obtain ⟨hv, ho, hw, hd, hsh⟩ := h
  constructor <;> simpa

theorem spacesCanonical_renderLine {s : State} (h : SpacesCanonical s) (hly : s.ly.toNat < 144) :
    SpacesCanonical (renderLine s) :=
  { h with work := renderLine_work_wf hly h.work, shadow := renderLine_shadow_wf hly h.shadow }

theorem spacesCanonical_completeHblank {s : State} (h : SpacesCanonical s) (allowed : Bool) :
    SpacesCanonical (completeHblank allowed s) := by
  obtain ⟨-, heq⟩ | ⟨-, heq⟩ := completeHblank_cases allowed s <;> rw [heq] <;> exact { h with }

/-- The publish of the wrap copies WORK, whose size DONE has (40_step.md R127). -/
theorem spacesCanonical_completeVblank {s : State} (h : SpacesCanonical s) (allowed : Bool) :
    SpacesCanonical (completeVblank allowed s) := by
  obtain ⟨-, heq⟩ | ⟨-, heq⟩ := completeVblank_cases allowed s <;> rw [heq]
  · exact { h with doneBuf := h.work }
  · exact { h with }

theorem spacesCanonical_transition {allowed : Bool} {s t : State} (hs : SpacesCanonical s)
    (h : transition allowed s = .next t) : SpacesCanonical t := by
  have hpaid : SpacesCanonical (payDuration s) := { hs with }
  obtain ⟨-, rfl⟩ | ⟨-, -, rfl⟩ | ⟨-, -, hly, rfl⟩ | ⟨-, -, rfl⟩ | ⟨-, -, rfl⟩ := transition_next_cases h
  · exact hs
  · exact { hpaid with }
  · exact { spacesCanonical_renderLine hpaid hly with }
  · exact spacesCanonical_completeHblank hpaid allowed
  · exact spacesCanonical_completeVblank hpaid allowed

/-! ### The invariant -/

theorem inv_execStep {n : BitVec 28} {s t : State} (hs : Inv s) (h : execStep n s = .next t) : Inv t := by
  have hparams : ParamsMirrored t.params := (stepFrame_execStep h).params ▸ hs.params
  obtain ⟨-, rfl⟩ | ⟨-, -, u, hu, rfl⟩ := execStep_next_cases h
  · exact ⟨statMode_setModeBits _ _, hparams, { hs.spaces with }, hs.sel⟩
  · have hstart : SelOrdered (tableStart n s).sel := by simpa using hs.sel
    have hsel : SelOrdered u.sel := selOrdered_transition hstart hu
    have hspaces : SpacesCanonical u := spacesCanonical_transition (spacesCanonical_tableStart hs.spaces n) hu
    exact ⟨statMode_setModeBits _ _, hparams, { hspaces with }, hsel⟩

theorem inv_hardReset {s : State} (h : ParamsMirrored s.params) : Inv (hardReset s) where
  mode := rfl
  params := h
  spaces := ⟨Memory.wf_nil _, Memory.wf_nil _, Memory.wf_nil _, Memory.wf_nil _, Memory.wf_nil _⟩
  sel := selOrdered_nil

theorem inv_hostWriteReg {s : State} (h : Inv s) (v : Byte) (r : Reg) : Inv (hostWriteReg s v r) where
  mode := by rw [ModeMirrored, statMode_hostWriteReg, hostWriteReg_mode]; exact h.mode
  params := by simpa using h.params
  spaces := by
    obtain ⟨hv, ho, hw, hd, hsh⟩ := h.spaces
    constructor <;> simpa
  sel := by simpa using h.sel

/-- Every command keeps the invariant: POST_BOOT by the agreement of its parameters, a memory write because its address
lies inside the space, the rest because they leave the parts of the invariant alone. -/
theorem inv_of_answers {i : Instr} {s t : State} (hs : Inv s) (h : Answers s i t) : Inv t := by
  have hclear : Inv (clearOutputs s) := { hs with spaces := { hs.spaces with } }
  cases h with
  | step h => exact inv_execStep hs h
  | resetHard => exact inv_hardReset hs.params
  | postBoot => exact { hclear with mode := hs.params, spaces := { hclear.spaces with } }
  | regWr => exact inv_hostWriteReg hclear _ _
  | vramWr =>
    exact { hclear with spaces := { hclear.spaces with vram := memWrite_wf hs.spaces.vram (vramIndex_lt _) } }
  | oamWr hlt => exact { hclear with spaces := { hclear.spaces with oam := memWrite_wf hs.spaces.oam hlt } }
  | @dma page =>
    have hfits : 0 + (dmaBytes page s).length ≤ Config.oamSize := by simp
    exact { hclear with spaces := { hclear.spaces with oam := memWriteBlock_wf hs.spaces.oam hfits } }
  | resetSoft | regRd | vramRd | oamRd | frameRd => exact { hclear with spaces := { hclear.spaces with } }

/-- Settles O56: a step waits, or performs one command, which keeps the invariant (`inv_of_answers`). -/
theorem stepKeepsInvariant : Obligations.StepKeepsInvariant := by
  intro s t hs h
  obtain ⟨-, rfl⟩ | ⟨w, rest, i, -, -, hi⟩ := step_next_cases h
  · exact hs
  · have htaken : Inv { s with commands := rest } := { hs with spaces := { hs.spaces with } }
    exact inv_of_answers htaken hi

/-- Settles O55: the reset state is one a hard reset leaves, under the default parameters. -/
theorem resetMeetsInvariant : Obligations.ResetMeetsInvariant :=
  inv_hardReset (s := State.reset) rfl

end Sys2Proof.Machine
end

section
/-! The frame invariants at reset (10_state.md R28). -/

namespace Sys2Proof.Machine

theorem postBootInFrame_paramsAtReset : PostBootInFrame Config.paramsAtReset where
  line := by decide
  active := fun h => absurd rfl h

theorem inFrame_reset : InFrame State.reset where
  line := by decide
  active := fun _ => by decide
  hblank := fun _ _ => by decide
  params := postBootInFrame_paramsAtReset

/-- Settles O57: at reset LY and `win_line` are 0, and the default post-boot mode is VBlank at line 0. -/
theorem resetIsInFrame : Obligations.ResetIsInFrame where
  left := inFrame_reset
  right :=
    { inFrame := inFrame_reset
      bound := by decide
      active := fun _ _ => by decide
      hblank := fun _ _ => by decide
      params := rfl }

end Sys2Proof.Machine
end

section
/-! The memories' own family (20_memory.md): reads are free of side effects (R73), who changes DONE (R82), and the one
line a render writes (R69, R70). -/

namespace Sys2Proof.Machine

/-! ### Reads -/

@[simp] theorem readReg_clearOutputs (s : State) (r : Reg) : readReg (clearOutputs s) r = readReg s r := by
  cases r <;> rfl

@[simp] theorem readReg_respond (v : Byte) (s : State) (r : Reg) : readReg (respond v s) r = readReg s r := by
  cases r <;> rfl

theorem exec_regRd_of_regOfAddr {a : BitVec 16} {r : Reg} (h : regOfAddr a = some r) (s : State) :
    exec (.regRd a) s = .next (respond (readReg s r) (clearOutputs s)) := by
  simp [exec, execRegRd, h]

theorem exec_oamRd_of_lt {a : BitVec 16} (h : oamOffset a < Config.oamSize) (s : State) :
    exec (.oamRd a) s = .next (respond (memRead s.oam (oamOffset a)) (clearOutputs s)) :=
  if_neg (Nat.not_le.2 h)

theorem exec_frameRd_of_lt {k : BitVec 17} (h : k.toNat < Config.frameSize) (s : State) :
    exec (.frameRd k) s = .next (respond (memRead s.doneBuf k.toNat) (clearOutputs s)) :=
  if_neg (Nat.not_le.2 h)

/-- A read that answers puts a byte on the response port, and answers the same from the state it left: the byte is taken
from an element outside the ports, under a guard on the operand alone (44_access.md R225, R230, R232, R235). -/
theorem exec_read_eq_respond {i : Instr} {s t : State}
    (hread : (∃ a, i = .regRd a) ∨ (∃ a, i = .vramRd a) ∨ (∃ a, i = .oamRd a) ∨ (∃ k, i = .frameRd k))
    (h : exec i s = .next t) : ∃ v, t = respond v (clearOutputs s) ∧ exec i t = .next t := by
  obtain ⟨a, rfl⟩ | ⟨a, rfl⟩ | ⟨a, rfl⟩ | ⟨k, rfl⟩ := hread <;> cases answers_of_exec h
  case regRd r hr =>
    refine ⟨readReg s r, rfl, ?_⟩
    rw [exec_regRd_of_regOfAddr hr, readReg_respond, readReg_clearOutputs]
    rfl
  case vramRd => exact ⟨_, rfl, rfl⟩
  case oamRd hlt => exact ⟨_, rfl, exec_oamRd_of_lt hlt _⟩
  case frameRd hlt => exact ⟨_, rfl, exec_frameRd_of_lt hlt _⟩

/-- Settles O25: a read only responds (`exec_read_eq_respond`), and a response is a change of the ports alone. -/
theorem readsChangeOnlyThePorts : Obligations.ReadsChangeOnlyThePorts := by
  intro i s t hread h
  obtain ⟨v, rfl, hagain⟩ := exec_read_eq_respond hread h
  exact ⟨rfl, rfl, rfl, hagain⟩

/-! ### Who changes DONE (20_memory.md R82) -/

/-- From `s` to `t` the VBlank wrap made DONE a copy of WORK, and left WORK (40_step.md R127). -/
def PublishesWork (s t : State) : Prop :=
  s.mode = .vblank ∧ t.mode = .oamSearch ∧ t.doneBuf = s.work ∧ t.work = s.work

@[simp] theorem completeHblank_doneBuf (allowed : Bool) (s : State) :
    (completeHblank allowed s).doneBuf = s.doneBuf := by
  obtain ⟨-, heq⟩ | ⟨-, heq⟩ := completeHblank_cases allowed s <;> simp [heq]

theorem completeVblank_keeps_or_publishes {s : State} (hm : s.mode = .vblank) (allowed : Bool) :
    (completeVblank allowed s).doneBuf = s.doneBuf ∨ PublishesWork s (completeVblank allowed s) := by
  obtain ⟨-, heq⟩ | ⟨-, heq⟩ := completeVblank_cases allowed s <;> rw [heq]
  · exact .inr ⟨hm, rfl, rfl, rfl⟩
  · exact .inl rfl

theorem transition_keeps_or_publishes {allowed : Bool} {s t : State} (h : transition allowed s = .next t) :
    t.doneBuf = s.doneBuf ∨ PublishesWork s t := by
  obtain ⟨-, rfl⟩ | ⟨-, -, rfl⟩ | ⟨-, -, -, rfl⟩ | ⟨-, -, rfl⟩ | ⟨hm, -, rfl⟩ := transition_next_cases h
  · exact .inl rfl
  · exact .inl rfl
  · exact .inl rfl
  · exact .inl (completeHblank_doneBuf allowed (payDuration s))
  · exact completeVblank_keeps_or_publishes (s := payDuration s) hm allowed

/-- What a STEP does before and after the table leaves the mode, WORK and DONE, so the table's cases are the STEP's. -/
theorem execStep_keeps_or_publishes {n : BitVec 28} {s t : State} (h : execStep n s = .next t) :
    t.doneBuf = s.doneBuf ∨ (lcdEn s.lcdc = true ∧ PublishesWork s t) := by
  obtain ⟨-, rfl⟩ | ⟨hl, -, u, hu, rfl⟩ := execStep_next_cases h
  · exact .inl rfl
  · obtain hkept | hpublished := transition_keeps_or_publishes hu
    · exact .inl (by simpa [afterTable] using hkept)
    · exact .inr ⟨hl, by simpa [PublishesWork, afterTable] using hpublished⟩

/-- Settles O28: RESET.HARD clears DONE, a STEP keeps or publishes it, and no other command writes it. -/
theorem doneChangesOnlyAtPublishOrHardReset : Obligations.DoneChangesOnlyAtPublishOrHardReset := by
  intro i s t h
  cases answers_of_exec h with
  | step hs => exact (execStep_keeps_or_publishes hs).imp_right fun hpublished => .inr ⟨⟨_, rfl⟩, hpublished⟩
  | resetHard => exact .inr (.inl ⟨rfl, rfl⟩)
  | regWr => exact .inl (hostWriteReg_doneBuf _ _ _)
  | resetSoft | postBoot | regRd | vramRd | vramWr | oamRd | oamWr | dma | frameRd => exact .inl rfl

/-! ### What a render writes -/

/-- Settles O51: the two block writes of a render reach one line each, and `renderLine` names no other element but
`win_line`. -/
theorem renderWritesOneLine : Obligations.RenderWritesOneLine := by
  intro s
  exact ⟨fun _ => memRead_renderLine_shadow_ne s, fun _ => memRead_renderLine_work_ne s, rfl⟩

end Sys2Proof.Machine
end

section
/-! What one STEP on an enabled display answers (40_step.md R117 to R132): no transition, or one completion of the mode,
and then what follows the table. -/

namespace Sys2Proof.Machine

/-- `Completes allowed s t`: the duration paid, the completion of `s`'s mode under the gate `allowed` answers `t`
(40_step.md R119 to R127). `transition_iff` ties it to the table. -/
inductive Completes (allowed : Bool) (s : State) : State → Prop
  | scan (hm : s.mode = .oamSearch) : Completes allowed s { s with sel := (oamScan s).sel, mode := .draw }
  | render (hm : s.mode = .draw) (hly : s.ly.toNat < 144) :
      Completes allowed s
        (requestStatIf (hblInt s.stat && allowed)
          { s with
            work := (renderLine s).work, shadow := (renderLine s).shadow, winLine := (renderLine s).winLine
            mode := .hblank })
  | enterVblank (hm : s.mode = .hblank) (hly : s.ly + 1 = 144) :
      Completes allowed s
        (requestStatIf (vblInt s.stat && allowed)
          { s with ly := s.ly + 1, mode := .vblank, requests := s.requests ++ [.vblank] })
  | enterOam (hm : s.mode = .hblank) (hly : s.ly + 1 ≠ 144) :
      Completes allowed s (requestStatIf (oamInt s.stat && allowed) { s with ly := s.ly + 1, mode := .oamSearch })
  | vblankLine (hm : s.mode = .vblank) (hly : s.ly.toNat < 153) : Completes allowed s { s with ly := s.ly + 1 }
  | wrap (hm : s.mode = .vblank) (hly : 153 ≤ s.ly.toNat) :
      Completes allowed s
        (requestStatIf (oamInt s.stat && allowed)
          { s with doneBuf := s.work, ly := 0, winLine := 0, winFlag := false, mode := .oamSearch })

theorem completes_completeHblank {allowed : Bool} {s : State} (hm : s.mode = .hblank) :
    Completes allowed s (completeHblank allowed s) := by
  obtain ⟨hly, heq⟩ | ⟨hly, heq⟩ := completeHblank_cases allowed s <;> rw [heq]
  · exact .enterVblank hm hly
  · exact .enterOam hm hly

theorem completes_completeVblank {allowed : Bool} {s : State} (hm : s.mode = .vblank) :
    Completes allowed s (completeVblank allowed s) := by
  obtain ⟨hly, heq⟩ | ⟨hly, heq⟩ := completeVblank_cases allowed s <;> rw [heq]
  · exact .wrap hm (by omega)
  · exact .vblankLine hm (by omega)

/-- Where `cycles` has not reached the duration the table changes nothing. -/
theorem transition_of_lt {allowed : Bool} {s : State} (h : s.cycles.toNat < duration s.mode) :
    transition allowed s = .next s :=
  if_pos h

/-- Where `cycles` has reached the duration the table answers the completion. -/
theorem transition_of_completes {allowed : Bool} {s t : State} (hd : duration s.mode ≤ s.cycles.toNat)
    (h : Completes allowed (payDuration s) t) : transition allowed s = .next t := by
  rw [transition, if_neg (Nat.not_lt.2 hd)]
  cases h with
  | scan hm => rw [show s.mode = .oamSearch from hm]; rfl
  | render hm hly => rw [show s.mode = .draw from hm]; exact if_neg (Nat.not_le.2 hly)
  | enterVblank hm hly => rw [show s.mode = .hblank from hm]; exact congrArg _ (if_pos hly)
  | enterOam hm hly => rw [show s.mode = .hblank from hm]; exact congrArg _ (if_neg hly)
  | vblankLine hm hly => rw [show s.mode = .vblank from hm]; exact congrArg _ (if_neg (by omega))
  | wrap hm hly => rw [show s.mode = .vblank from hm]; exact congrArg _ (if_pos (by omega))

theorem completes_of_transition {allowed : Bool} {s t : State} (h : transition allowed s = .next t) :
    (s.cycles.toNat < duration s.mode ∧ t = s) ∨
    (duration s.mode ≤ s.cycles.toNat ∧ Completes allowed (payDuration s) t) := by
  obtain hstay | ⟨hm, hd, rfl⟩ | ⟨hm, hd, hly, rfl⟩ | ⟨hm, hd, rfl⟩ | ⟨hm, hd, rfl⟩ := transition_next_cases h
  · exact .inl hstay
  all_goals refine .inr ⟨by rw [hm]; exact hd, ?_⟩
  · exact .scan hm
  · exact .render hm hly
  · exact completes_completeHblank hm
  · exact completes_completeVblank hm

/-! ### What every completion does -/

section
variable {allowed : Bool} {s t : State}

theorem Completes.stat (h : Completes allowed s t) : t.stat = s.stat := by cases h <;> rfl

theorem Completes.cycles (h : Completes allowed s t) : t.cycles = s.cycles := by cases h <;> rfl

theorem Completes.wasDisabled (h : Completes allowed s t) : t.wasDisabled = s.wasDisabled := by cases h <;> rfl

/-- The modes follow one another in the order of the scanline (40_step.md R119 to R127). -/
theorem Completes.mode (h : Completes allowed s t) :
    s.mode = .oamSearch ∧ t.mode = .draw ∨ s.mode = .draw ∧ t.mode = .hblank ∨
    s.mode = .hblank ∧ (t.mode = .oamSearch ∨ t.mode = .vblank) ∨
    s.mode = .vblank ∧ (t.mode = .vblank ∨ t.mode = .oamSearch) := by
  cases h with
  | scan hm => exact .inl ⟨hm, rfl⟩
  | render hm => exact .inr (.inl ⟨hm, rfl⟩)
  | enterVblank hm => exact .inr (.inr (.inl ⟨hm, .inr rfl⟩))
  | enterOam hm => exact .inr (.inr (.inl ⟨hm, .inl rfl⟩))
  | vblankLine hm => exact .inr (.inr (.inr ⟨hm, .inl hm⟩))
  | wrap hm => exact .inr (.inr (.inr ⟨hm, .inr rfl⟩))

/-- Only the wrap, which leads from VBLANK to OAM, clears `win_flag` (40_step.md R127). -/
theorem Completes.winFlag (h : Completes allowed s t) :
    t.winFlag = true ↔ s.winFlag = true ∧ ¬(s.mode = .vblank ∧ t.mode = .oamSearch) := by
  cases h with
  | scan hm | render hm | enterVblank hm | enterOam hm | vblankLine hm => simp [hm]
  | wrap hm => simp [hm]

end

/-! ### Requests (60_exceptions.md R283)

The gate of a STEP from `s`, `!anyStat s.stat s.mode`, is `gateOpen s` by definition. -/

theorem requestStatIf_gateOpen (s t : State) (enable : Bool) :
    (requestStatIf (enable && gateOpen s) t).requests = t.requests ++ statRequest s enable := by
  unfold statRequest
  cases h : enable && gateOpen s <;> simp

/-- An open gate implies that LYC_EQ was 0 wherever LYC_INT is 1, so the edge of R129 needs no mention (R134). -/
theorem lycRequestDue_gateOpen (s : State) (ly : Byte) :
    lycRequestDue (gateOpen s) s.stat ly s.lyc = (ly == s.lyc && lycInt s.stat && gateOpen s) := by
  unfold lycRequestDue gateOpen
  cases lycEq s.stat <;> cases lycInt s.stat <;> simp

/-- After the table comes the LYC request, and no other (40_step.md R129). -/
theorem afterTable_requests {s t : State} (hstat : t.stat = s.stat) (hlyc : t.lyc = s.lyc) :
    (afterTable (gateOpen s) t).requests = t.requests ++ lycRequest s t.ly := by
  rw [lycRequest, ← requestStatIf_gateOpen, ← lycRequestDue_gateOpen, ← hstat, ← hlyc]
  rfl

theorem afterTable_requestStatIf {s t : State} {enable : Bool} (hstat : t.stat = s.stat) (hlyc : t.lyc = s.lyc) :
    (afterTable (gateOpen s) (requestStatIf (enable && gateOpen s) t)).requests =
      t.requests ++ statRequest s enable ++ lycRequest s t.ly := by
  rw [← requestStatIf_gateOpen]
  exact afterTable_requests hstat hlyc

/-- The enable of the request made on entry to a mode; DRAW has none (40_step.md R121, R124, R125). -/
def entryEnable (stat : Byte) : Mode → Bool
  | .hblank => hblInt stat
  | .vblank => vblInt stat
  | .oamSearch => oamInt stat
  | .draw => false

/-- What a transition from mode `m` to mode `m'` requests in a STEP from `s`: VBLANK on entry to it whatever the gate, then
STAT for an entered mode under its enable and the gate. -/
def transitionRequests (s : State) (m' : Mode) : List Irq :=
  (if s.mode = .hblank ∧ m' = .vblank then [.vblank] else []) ++
  (if m' = s.mode then [] else statRequest s (entryEnable s.stat m'))

theorem transitionRequests_self (s : State) : transitionRequests s s.mode = [] := by
  have hne : ¬(s.mode = .hblank ∧ s.mode = .vblank) := fun ⟨h, h'⟩ => absurd (h.symm.trans h') (by decide)
  simp [transitionRequests, hne]

/-- A completion from `u`, where the STEP from `s` has left mode and STAT alone so far, adds the requests of its
transition. -/
theorem Completes.requests {s u t : State} (h : Completes (gateOpen s) u t) (hmode : u.mode = s.mode)
    (hstat : u.stat = s.stat) : t.requests = u.requests ++ transitionRequests s t.mode := by
  unfold transitionRequests
  rw [← hmode, ← hstat]
  cases h with
  | scan hm => simp [hm, entryEnable, statRequest]
  | render hm => rw [requestStatIf_gateOpen]; simp [hm, entryEnable]
  | enterVblank hm => rw [requestStatIf_gateOpen]; simp [hm, entryEnable]
  | enterOam hm => rw [requestStatIf_gateOpen]; simp [hm, entryEnable]
  | vblankLine hm => simp [hm]
  | wrap hm => rw [requestStatIf_gateOpen]; simp [hm, entryEnable]

/-! ### A STEP on an enabled display -/

theorem tableStart_mode (n : BitVec 28) (s : State) : (tableStart n s).mode = s.mode := wake_mode (clearOutputs s)

theorem tableStart_stat (n : BitVec 28) (s : State) : (tableStart n s).stat = s.stat := wake_stat (clearOutputs s)

theorem tableStart_requests (n : BitVec 28) (s : State) : (tableStart n s).requests = [] :=
  wake_requests (clearOutputs s)

/-- What an enabled STEP did that answers `t`: it stayed, or paid one duration and made one completion, and then what
follows the table. -/
theorem execStep_enabled_cases {n : BitVec 28} {s t : State} (hl : lcdEn s.lcdc = true) (h : execStep n s = .next t) :
    ∃ u, t = afterTable (gateOpen s) u ∧
      ((startCycles s + n.toNat < duration s.mode ∧ u = tableStart n s) ∨
       (duration s.mode ≤ startCycles s + n.toNat ∧ Completes (gateOpen s) (payDuration (tableStart n s)) u)) ∧
      (tableStart n s).cycles.toNat = startCycles s + n.toNat := by
  obtain ⟨hoff, -⟩ | ⟨-, hc, u, hu, rfl⟩ := execStep_next_cases h
  · exact absurd (hl.symm.trans hoff) (by decide)
  · have hcount : (tableStart n s).cycles.toNat = startCycles s + n.toNat := accumulate_cycles_toNat hc
    refine ⟨u, rfl, ?_, hcount⟩
    rw [← hcount, ← tableStart_mode n s]
    exact completes_of_transition hu

/-- Settles O38: a STEP that stays keeps mode and cycles; a completion leaves the cycles that remain after one duration
(`payDuration`) and enters the mode that follows (`Completes.mode`). -/
theorem atMostOneTransitionPerStep : Obligations.AtMostOneTransitionPerStep := by
  intro s t n hl h
  obtain ⟨u, rfl, ⟨hlt, rfl⟩ | ⟨hd, hu⟩, hcount⟩ := execStep_enabled_cases hl h
  · exact .inl ⟨hlt, tableStart_mode n s, hcount⟩
  · have hpaid : u.cycles.toNat = startCycles s + n.toNat - duration s.mode := by
      rw [hu.cycles, payDuration_cycles_toNat, hcount, tableStart_mode]
    have hfollows := hu.mode
    rw [payDuration_mode, tableStart_mode] at hfollows
    exact .inr ⟨hd, hpaid ▸ Nat.sub_add_cancel hd, hfollows⟩

/-- An enabled STEP reaches what follows the table with STAT as it was. -/
theorem execStep_enabled_stat {n : BitVec 28} {s t : State} (hl : lcdEn s.lcdc = true) (h : execStep n s = .next t) :
    ∃ u, t = afterTable (gateOpen s) u ∧ u.stat = s.stat := by
  obtain ⟨u, rfl, ⟨-, rfl⟩ | ⟨-, hu⟩, -⟩ := execStep_enabled_cases hl h
  · exact ⟨_, rfl, tableStart_stat n s⟩
  · exact ⟨u, rfl, hu.stat.trans (tableStart_stat n s)⟩

theorem afterTable_lycEq (allowed : Bool) (s : State) : lycEq (afterTable allowed s).stat = (s.ly == s.lyc) := by
  simp [afterTable]

theorem afterTable_stat_getLsbD (allowed : Bool) (s : State) {k : Nat} (hk : 3 ≤ k) :
    (afterTable allowed s).stat.getLsbD k = s.stat.getLsbD k :=
  (getLsbD_setModeBits _ _ k (by omega)).trans (getLsbD_setLycEq _ _ k (by omega))

/-- Settles O39: nothing after the compare touches LYC_EQ, and nothing in a STEP touches LYC or STAT bits 7..3. -/
theorem lycFlagFollowsCompare : Obligations.LycFlagFollowsCompare := by
  intro s t n hl h
  have hlyc : t.lyc = s.lyc := (stepFrame_execStep h).lyc
  obtain ⟨u, rfl, hstat⟩ := execStep_enabled_stat hl h
  refine ⟨?_, hlyc, fun k hk => ?_⟩
  · rw [afterTable_lycEq]
    exact beq_iff_eq
  · rw [afterTable_stat_getLsbD _ _ hk, hstat]

/-- The window-flag test sets the flag or leaves it (40_step.md R130). -/
theorem afterTable_winFlag (allowed : Bool) (s : State) :
    (afterTable allowed s).winFlag = true ↔ s.wy = s.ly ∨ s.winFlag = true := by
  simp [afterTable]

/-- The soft reset of a re-enable clears the flag before the table (40_step.md R113). -/
theorem tableStart_winFlag (n : BitVec 28) (s : State) :
    (tableStart n s).winFlag = true ↔ s.winFlag = true ∧ s.wasDisabled = false := by
  cases h : s.wasDisabled <;> simp [h]

/-- Settles O40: the flag reaches the test as it was, unless the re-enable soft reset (`tableStart_winFlag`) or the wrap
(`Completes.winFlag`) cleared it. -/
theorem windowFlagIsSticky : Obligations.WindowFlagIsSticky := by
  intro s t n hl h
  have hwy : t.wy = s.wy := (stepFrame_execStep h).wy
  obtain ⟨u, rfl, hu, -⟩ := execStep_enabled_cases hl h
  have hflag : u.winFlag = true ↔
      s.winFlag = true ∧ s.wasDisabled = false ∧ ¬(s.mode = .vblank ∧ u.mode = .oamSearch) := by
    obtain ⟨-, rfl⟩ | ⟨-, hu⟩ := hu
    · have hstay : ¬(s.mode = .vblank ∧ (tableStart n s).mode = .oamSearch) := by
        rw [tableStart_mode]; exact fun ⟨hv, ho⟩ => absurd (hv.symm.trans ho) (by decide)
      rw [tableStart_winFlag, ← and_assoc, and_iff_left hstay]
    · rw [hu.winFlag, payDuration_winFlag, tableStart_winFlag, payDuration_mode, tableStart_mode, and_assoc]
  refine ⟨hwy, ?_⟩
  rw [afterTable_winFlag, hflag, show u.wy = s.wy from hwy]
  rfl

/-- The mode bits are forced last in every STEP (40_step.md R112, R131). -/
theorem modeMirrored_execStep {n : BitVec 28} {s t : State} (h : execStep n s = .next t) : ModeMirrored t := by
  obtain ⟨-, rfl⟩ | ⟨-, -, u, -, rfl⟩ := execStep_next_cases h <;> exact statMode_setModeBits _ _

theorem toNat_statMode (stat : Byte) : (statMode stat).toNat = stat.toNat % 4 := by
  simp [statMode]

/-- Settles O41: bits 1..0 are the field that mirrors the mode (`modeMirrored_execStep`), and its codes are 0 to 3. -/
theorem stepForcesModeBits : Obligations.StepForcesModeBits := by
  intro s t n h
  have hmirror : statMode t.stat = modeCode t.mode := modeMirrored_execStep h
  rw [← toNat_statMode, hmirror]
  cases t.mode <;> rfl

theorem execStep_enabled_requests {n : BitVec 28} {s t : State} (hl : lcdEn s.lcdc = true)
    (h : execStep n s = .next t) : t.requests = transitionRequests s t.mode ++ lycRequest s t.ly := by
  have hlyc : t.lyc = s.lyc := (stepFrame_execStep h).lyc
  obtain ⟨u, rfl, ⟨-, rfl⟩ | ⟨-, hu⟩, -⟩ := execStep_enabled_cases hl h
  · have hmode : (afterTable (gateOpen s) (tableStart n s)).mode = s.mode := tableStart_mode n s
    rw [hmode, transitionRequests_self, afterTable_requests (tableStart_stat n s) hlyc, tableStart_requests]
    rfl
  · rw [afterTable_requests (hu.stat.trans (tableStart_stat n s)) hlyc,
      hu.requests (tableStart_mode n s) (tableStart_stat n s), payDuration_requests, tableStart_requests]
    rfl

theorem length_statRequest_le (s : State) (enable : Bool) : (statRequest s enable).length ≤ 1 := by
  unfold statRequest; split <;> simp

theorem length_transitionRequests_le (s : State) (m' : Mode) : (transitionRequests s m').length ≤ 2 := by
  refine List.length_append.trans_le (Nat.add_le_add (?_ : _ ≤ 1) (?_ : _ ≤ 1))
  · split <;> simp
  · split
    · exact Nat.zero_le 1
    · exact length_statRequest_le s _

/-- Settles O43: the requests of the transition and then the LYC request, of at most two and one elements. -/
theorem requestListOfAStep : Obligations.RequestListOfAStep := by
  intro s t n h
  cases hl : lcdEn s.lcdc with
  | false =>
    have hnone : t.requests = [] := by
      rw [show exec (.step n) s = execStep n s from rfl, execStep_disabled hl] at h
      cases h; rfl
    exact ⟨fun _ => hnone, fun hon => absurd hon (by decide), by simp [hnone]⟩
  | true =>
    have hlist : t.requests = transitionRequests s t.mode ++ lycRequest s t.ly := execStep_enabled_requests hl h
    refine ⟨fun hoff => absurd hoff (by decide), fun _ => hlist, ?_⟩
    rw [hlist, List.length_append]
    exact Nat.add_le_add (length_transitionRequests_le s t.mode) (length_statRequest_le s _)

end Sys2Proof.Machine
end

section
/-! The completions of a running display, one by one (40_step.md R118 to R127). -/

namespace Sys2Proof.Machine

/-- `s` with quiet ports and cycle count `k`: what the table of a running display looks at (`tableStart_of_running`). -/
def withCount (s : State) (k : BitVec 32) : State :=
  { s with cycles := k, response := none, requests := [] }

theorem tableStart_of_running {s : State} (hs : Running s) (n : BitVec 28) :
    tableStart n s = withCount s (.ofNat 32 (s.cycles.toNat + n.toNat)) := by
  have hwake : wake (clearOutputs s) = clearOutputs s := wake_of_not_wasDisabled hs.2
  rw [tableStart, accumulate, hwake, startCycles_clearOutputs, startCycles_of_not_wasDisabled hs.2]
  rfl

/-- A STEP of a running display answers what follows the table on what the table answers. -/
theorem exec_step_of_running {n : BitVec 28} {s u : State} (hs : Running s) (hc : s.cycles.toNat + n.toNat < 2 ^ 32)
    (hu : transition (gateOpen s) (withCount s (.ofNat 32 (s.cycles.toNat + n.toNat))) = .next u) :
    exec (.step n) s = .next (afterTable (gateOpen s) u) := by
  rw [← tableStart_of_running hs] at hu
  exact execStep_of_transition hs.1 (by rwa [startCycles_of_not_wasDisabled hs.2]) hu

/-- A STEP of a running display below the duration counts and makes no transition. -/
theorem exec_step_stays {n : BitVec 28} {s : State} (hs : Running s) (hlt : s.cycles.toNat + n.toNat < duration s.mode) :
    ∃ k : BitVec 32, k.toNat = s.cycles.toNat + n.toNat ∧
      exec (.step n) s = .next (afterTable (gateOpen s) (withCount s k)) := by
  have hc : s.cycles.toNat + n.toNat < 2 ^ 32 := hlt.trans (by cases s.mode <;> decide)
  have hcount : (BitVec.ofNat 32 (s.cycles.toNat + n.toNat)).toNat = s.cycles.toNat + n.toNat := Nat.mod_eq_of_lt hc
  exact ⟨_, hcount, exec_step_of_running hs hc (transition_of_lt (hcount.trans_lt hlt))⟩

/-- A STEP of a running display that reaches the duration `d` answers the completion of its mode, with the cycles that
remain. -/
theorem exec_step_completes {n : BitVec 28} {s : State} {d : Nat} (hs : Running s) (hd : duration s.mode = d)
    (hle : d ≤ s.cycles.toNat + n.toNat) (hc : s.cycles.toNat + n.toNat < 2 ^ 32) :
    ∃ k : BitVec 32, k.toNat = s.cycles.toNat + n.toNat - d ∧
      ∀ u, Completes (gateOpen s) (withCount s k) u → exec (.step n) s = .next (afterTable (gateOpen s) u) := by
  subst hd
  have hcount : (BitVec.ofNat 32 (s.cycles.toNat + n.toNat)).toNat = s.cycles.toNat + n.toNat := Nat.mod_eq_of_lt hc
  have hpaid := payDuration_cycles_toNat (withCount s (.ofNat 32 (s.cycles.toNat + n.toNat)))
  exact ⟨_, hpaid.trans (congrArg (· - duration s.mode) hcount), fun u hu =>
    exec_step_of_running hs hc (transition_of_completes (hle.trans_eq hcount.symm) hu)⟩

/-- Settles O31: the table answers the counted state, and what follows it writes STAT, win_flag and the requests only. -/
theorem belowThresholdOnlyCounts : Obligations.BelowThresholdOnlyCounts := by
  intro s n hs hlt
  obtain ⟨k, hk, hexec⟩ := exec_step_stays hs hlt
  exact ⟨_, hexec, hk, afterTable_requests rfl rfl, rfl, rfl⟩

/-- Settles O32: the completion is `Completes.scan`, whose scan reads only LCDC, LY and OAM. -/
theorem oamCompletionScansAndDraws : Obligations.OamCompletionScansAndDraws := by
  intro s n hs hm hle hc
  obtain ⟨k, hk, hexec⟩ := exec_step_completes hs (by rw [hm]; rfl) hle hc
  exact ⟨_, hexec _ (.scan hm), rfl, hk, rfl, afterTable_requests rfl rfl, rfl, rfl⟩

/-- Settles O33: the completion is `Completes.render`, whose render reads neither the cycles nor the ports. -/
theorem drawCompletionRendersLine : Obligations.DrawCompletionRendersLine := by
  intro s n hs hm hly hle hc
  obtain ⟨k, hk, hexec⟩ := exec_step_completes hs (by rw [hm]; rfl) hle hc
  exact ⟨_, hexec _ (.render hm hly), rfl, hk, rfl, rfl, rfl, afterTable_requestStatIf rfl rfl, rfl, rfl⟩

/-- Settles O34: at any line but 143 the completion is `Completes.enterOam`. -/
theorem hblankCompletionEntersOam : Obligations.HblankCompletionEntersOam := by
  intro s n hs hm hle hc hly
  have hnext : s.ly + 1 ≠ 144 := by bv_omega
  obtain ⟨k, hk, hexec⟩ := exec_step_completes hs (by rw [hm]; rfl) hle hc
  exact ⟨_, hexec _ (.enterOam hm hnext), rfl, hk, BitVec.toNat_add s.ly 1, afterTable_requestStatIf rfl rfl, rfl, rfl⟩

/-- Settles O35: at line 143 the completion is `Completes.enterVblank`. -/
theorem hblankCompletionEntersVblank : Obligations.HblankCompletionEntersVblank := by
  intro s n hs hm hle hc hly
  have hnext : s.ly + 1 = 144 := by bv_omega
  obtain ⟨k, hk, hexec⟩ := exec_step_completes hs (by rw [hm]; rfl) hle hc
  refine ⟨_, hexec _ (.enterVblank hm hnext), rfl, hk, hnext, ?_, rfl, rfl⟩
  rw [← hnext]
  exact afterTable_requestStatIf rfl rfl

/-- Settles O36: below line 153 the completion is `Completes.vblankLine`. -/
theorem vblankLineMovesOn : Obligations.VblankLineMovesOn := by
  intro s n hs hm hle hc hly
  have hnext : (s.ly + 1).toNat = s.ly.toNat + 1 := by bv_omega
  obtain ⟨k, hk, hexec⟩ := exec_step_completes hs (by rw [hm]; rfl) hle hc
  exact ⟨_, hexec _ (.vblankLine hm hly), hm, hk, hnext, afterTable_requests rfl rfl, rfl, rfl⟩

/-- Settles O37: from line 153 on the completion is `Completes.wrap`; the window-flag test then compares WY with the new
LY, 0. -/
theorem vblankWrapPublishesFrame : Obligations.VblankWrapPublishesFrame := by
  intro s n hs hm hle hc hly
  obtain ⟨k, hk, hexec⟩ := exec_step_completes hs (by rw [hm]; rfl) hle hc
  refine ⟨_, hexec _ (.wrap hm hly), rfl, hk, rfl, rfl, ?_, rfl, afterTable_requestStatIf rfl rfl, rfl, rfl⟩
  exact (afterTable_winFlag _ _).trans (or_iff_left Bool.false_ne_true)

end Sys2Proof.Machine
end

section
/-! The cadence of a line and of a frame (40_step.md R135). -/

namespace Sys2Proof.Machine

/-! ### Runs of commands -/

theorem execAll_cons_of_next {i : Instr} {s t : State} (h : exec i s = .next t) (rest : List Instr) :
    execAll (i :: rest) s = execAll rest t := by
  rw [execAll, h]

theorem execAll_append_of_next {first : List Instr} {s t : State} (h : execAll first s = .next t) (rest : List Instr) :
    execAll (first ++ rest) s = execAll rest t := by
  induction first generalizing s with
  | nil => cases h; rfl
  | cons i first ih =>
    rw [execAll] at h
    split at h
    next u hu => rw [List.cons_append, execAll_cons_of_next hu, ih h]
    next => exact absurd h (by simp)
    next => exact absurd h (by simp)

/-- A body that takes every line of `a..b-1` to the next, repeated, takes line `a` to any line up to `b`. -/
theorem execAll_replicate {P : Nat → State → Prop} {body : List Instr} {a b : Nat}
    (hbody : ∀ j s, a ≤ j → j < b → P j s → ∃ t, execAll body s = .next t ∧ P (j + 1) t)
    {s : State} (hs : P a s) (k : Nat) (hk : a + k ≤ b) : ∃ t, execAll (List.replicate k body).flatten s = .next t ∧ P (a + k) t := by
  induction k with
  | zero => exact ⟨s, rfl, hs⟩
  | succ k ih =>
    obtain ⟨t, ht, hPt⟩ := ih (by omega)
    obtain ⟨u, hu, hPu⟩ := hbody (a + k) t (by omega) (by omega) hPt
    refine ⟨u, ?_, hPu⟩
    rw [List.replicate_succ', List.flatten_append, execAll_append_of_next ht, List.flatten_singleton, hu]

/-! ### The STEPs of a line -/

/-- The display runs in mode `m` at line `line`, with no cycles owed. -/
structure AtStart (m : Mode) (line : Nat) (s : State) : Prop where
  running : Running s
  mode    : s.mode = m
  cycles  : s.cycles.toNat = 0
  line    : s.ly.toNat = line

/-- The mode in which a line begins: OAM on the visible lines, VBLANK below them (40_step.md R123, R125). -/
def startMode (line : Nat) : Mode := if line < 144 then .oamSearch else .vblank

theorem startMode_succ {line : Nat} (h : line < 144) :
    startMode (line + 1) = if line = 143 then .vblank else .oamSearch := by
  by_cases hlast : line = 143
  · subst hlast; rfl
  · rw [if_neg hlast]; exact if_pos (by omega)

/-- Line `line` begins: the states between which the cadence leads. -/
abbrev LineStarts (line : Nat) (s : State) : Prop := AtStart (startMode line) line s

/-- A STEP leaves the display running: no table case sets the latch. -/
theorem running_of_exec_step {n : BitVec 28} {s t : State} (hs : Running s) (h : exec (.step n) s = .next t) :
    Running t := by
  have hlcdc : t.lcdc = s.lcdc := (stepFrame_execStep h).lcdc
  refine ⟨hlcdc ▸ hs.1, ?_⟩
  obtain ⟨u, rfl, ⟨-, rfl⟩ | ⟨-, hu⟩, -⟩ := execStep_enabled_cases hs.1 h
  · exact wake_wasDisabled (clearOutputs s)
  · exact hu.wasDisabled.trans (wake_wasDisabled (clearOutputs s))

section
variable {m : Mode} {line : Nat} {s t : State}

/-- A STEP of exactly the duration pays it whole. -/
theorem AtStart.after {d : Nat} {n : BitVec 28} {m' : Mode} {line' : Nat} (hs : AtStart m line s) (hn : n.toNat = d)
    (hexec : exec (.step n) s = .next t) (hmode : t.mode = m')
    (hcycles : t.cycles.toNat = s.cycles.toNat + n.toNat - d) (hline : t.ly.toNat = line') : AtStart m' line' t where
  running := running_of_exec_step hs.running hexec
  mode := hmode
  cycles := by rw [hcycles, hs.cycles, hn]; omega
  line := hline

theorem AtStart.count (hs : AtStart m line s) (n : BitVec 28) : s.cycles.toNat + n.toNat = n.toNat := by
  rw [hs.cycles, Nat.zero_add]

theorem AtStart.count_lt (hs : AtStart m line s) (n : BitVec 28) : s.cycles.toNat + n.toNat < 2 ^ 32 := by
  rw [hs.count n]; omega

theorem AtStart.exec_oam (hs : AtStart .oamSearch line s) :
    ∃ t, exec (.step 80) s = .next t ∧ AtStart .draw line t ∧ t.doneBuf = s.doneBuf := by
  obtain ⟨t, hexec, hmode, hcycles, -, -, -, hframe⟩ :=
    oamCompletionScansAndDraws s 80 hs.running hs.mode (hs.count 80).ge (hs.count_lt 80)
  have hly : t.ly = s.ly := (congrArg State.ly hframe :)
  exact ⟨t, hexec, hs.after rfl hexec hmode hcycles (hly ▸ hs.line), (congrArg State.doneBuf hframe :)⟩

theorem AtStart.exec_draw (hs : AtStart .draw line s) (hline : line < 144) :
    ∃ t, exec (.step 172) s = .next t ∧ AtStart .hblank line t ∧ t.doneBuf = s.doneBuf := by
  obtain ⟨t, hexec, hmode, hcycles, -, -, -, -, -, hframe⟩ :=
    drawCompletionRendersLine s 172 hs.running hs.mode (hs.line ▸ hline) (hs.count 172).ge (hs.count_lt 172)
  have hly : t.ly = s.ly := (congrArg State.ly hframe :)
  exact ⟨t, hexec, hs.after rfl hexec hmode hcycles (hly ▸ hs.line), (congrArg State.doneBuf hframe :)⟩

theorem AtStart.exec_hblank (hs : AtStart .hblank line s) (hline : line < 144) :
    ∃ t, exec (.step 204) s = .next t ∧ LineStarts (line + 1) t ∧ t.doneBuf = s.doneBuf := by
  have hle := (hs.count 204).ge
  have hc := hs.count_lt 204
  by_cases hlast : line = 143
  · subst hlast
    obtain ⟨t, hexec, hmode, hcycles, hly, -, -, hframe⟩ :=
      hblankCompletionEntersVblank s 204 hs.running hs.mode hle hc hs.line
    exact ⟨t, hexec, hs.after rfl hexec hmode hcycles (by rw [hly]; rfl), (congrArg State.doneBuf hframe :)⟩
  · obtain ⟨t, hexec, hmode, hcycles, hly, -, -, hframe⟩ :=
      hblankCompletionEntersOam s 204 hs.running hs.mode hle hc (hs.line ▸ hlast)
    have hstart : t.mode = startMode (line + 1) := hmode.trans (if_pos (by omega)).symm
    have hnext : t.ly.toNat = line + 1 := by rw [hly, hs.line]; omega
    exact ⟨t, hexec, hs.after rfl hexec hstart hcycles hnext, (congrArg State.doneBuf hframe :)⟩

/-- One visible line: OAM, DRAW, HBLANK, and the next line begins. -/
theorem LineStarts.execAll_visibleLine (hs : LineStarts line s) (hline : line < 144) :
    ∃ t, execAll visibleLineSteps s = .next t ∧ LineStarts (line + 1) t ∧ t.doneBuf = s.doneBuf := by
  rw [LineStarts, startMode, if_pos hline] at hs
  obtain ⟨t, ht, hdraw, hdone⟩ := hs.exec_oam
  obtain ⟨u, hu, hhblank, hdone'⟩ := hdraw.exec_draw hline
  obtain ⟨v, hv, hnext, hdone''⟩ := hhblank.exec_hblank hline
  refine ⟨v, ?_, hnext, hdone''.trans (hdone'.trans hdone)⟩
  rw [visibleLineSteps, execAll_cons_of_next ht, execAll_cons_of_next hu, execAll_cons_of_next hv, execAll]

/-- One VBlank line but the last of the frame. -/
theorem LineStarts.execAll_vblankLine (hs : LineStarts line s) (hfirst : 144 ≤ line) (hline : line < 153) :
    ∃ t, execAll [.step 456] s = .next t ∧ LineStarts (line + 1) t := by
  rw [LineStarts, startMode, if_neg (by omega)] at hs
  obtain ⟨t, hexec, hmode, hcycles, hly, -, -, -⟩ :=
    vblankLineMovesOn s 456 hs.running hs.mode (hs.count 456).ge (hs.count_lt 456) (hs.line ▸ hline)
  have hstart : t.mode = startMode (line + 1) := hmode.trans (if_neg (by omega)).symm
  exact ⟨t, execAll_cons_of_next hexec [], hs.after rfl hexec hstart hcycles (by rw [hly, hs.line])⟩

/-- The last VBlank line: the frame is published and line 0 begins. -/
theorem AtStart.execAll_wrap (hs : AtStart .vblank 153 s) :
    ∃ t, execAll [.step 456] s = .next t ∧ AtStart .oamSearch 0 t ∧ t.winLine = 0 ∧ t.doneBuf = t.work := by
  obtain ⟨t, hexec, hmode, hcycles, hly, hwin, -, hdone, -, -, hframe⟩ :=
    vblankWrapPublishesFrame s 456 hs.running hs.mode (hs.count 456).ge (hs.count_lt 456) hs.line.ge
  have hwork : t.work = s.work := (congrArg State.work hframe :)
  have hstart : AtStart .oamSearch 0 t := hs.after rfl hexec hmode hcycles (by rw [hly]; rfl)
  exact ⟨t, execAll_cons_of_next hexec [], hstart, hwin, hdone.trans hwork.symm⟩

end

/-- Settles O44: the three completions of a visible line (`LineStarts.execAll_visibleLine`). -/
theorem visibleLineCadence : Obligations.VisibleLineCadence := by
  intro s hrun hmode hcycles hly
  have hline : s.ly.toNat < 144 := by omega
  have hstart : s.mode = startMode s.ly.toNat := hmode.trans (if_pos hline).symm
  have hs : LineStarts s.ly.toNat s := ⟨hrun, hstart, congrArg BitVec.toNat hcycles, rfl⟩
  obtain ⟨t, hexec, ht, hdone⟩ := hs.execAll_visibleLine hline
  exact ⟨t, hexec, ht.running, BitVec.eq_of_toNat_eq ht.cycles, ht.line, ht.mode.trans (startMode_succ hline), hdone⟩

/-- Settles O45: 144 visible lines lead to VBLANK, nine VBlank lines to line 153, and the wrap back to line 0. -/
theorem frameCadence : Obligations.FrameCadence := by
  intro s hrun hmode hcycles hly
  have hs : LineStarts 0 s := ⟨hrun, hmode, congrArg BitVec.toNat hcycles, congrArg BitVec.toNat hly⟩
  have hvisible (j : Nat) (s : State) (_ : 0 ≤ j) (hj : j < 144) (h : LineStarts j s) :
      ∃ t, execAll visibleLineSteps s = .next t ∧ LineStarts (j + 1) t := by
    obtain ⟨t, ht, hnext, -⟩ := h.execAll_visibleLine hj
    exact ⟨t, ht, hnext⟩
  obtain ⟨t, ht, hvblank⟩ := execAll_replicate hvisible hs 144 le_rfl
  obtain ⟨u, hu, hlast⟩ :=
    execAll_replicate (fun j s hfirst hj (h : LineStarts j s) => h.execAll_vblankLine hfirst hj) hvblank 9 le_rfl
  obtain ⟨v, hv, hback, hwin, hdone⟩ := AtStart.execAll_wrap hlast
  have hsteps : frameSteps = (List.replicate 144 visibleLineSteps).flatten ++
      ((List.replicate 9 [.step 456]).flatten ++ [.step 456]) := rfl
  have hframe : execAll frameSteps s = .next v := by
    rw [hsteps, execAll_append_of_next ht, execAll_append_of_next hu, hv]
  exact ⟨v, hframe, hback.running, hback.mode, BitVec.eq_of_toNat_eq hback.cycles, BitVec.eq_of_toNat_eq hback.line, hwin,
    hdone⟩

end Sys2Proof.Machine
end

section
/-! The OAM scan: the entries it selects and their order (41_oam_scan.md R152 to R154). -/

namespace Sys2Proof.Machine

/-! ### The first elements of a filtered range -/

/-- Before `i` a filtered range holds what passes below `i`, so that number is the place of `i`. -/
theorem idxOf_filter_range {p : Nat → Bool} {i n : Nat} (hi : i < n) (hp : p i = true) :
    ((List.range n).filter p).idxOf i = ((List.range i).filter p).length := by
  have hsplit : List.range n = List.range i ++ i :: (List.range (n - i - 1)).map (i + 1 + ·) := by
    rw [← List.singleton_append, ← List.append_assoc, ← List.range_succ, ← List.range_add]
    congr 1
    omega
  have hbelow : i ∉ (List.range i).filter p := fun h => Nat.lt_irrefl i (List.mem_range.1 (List.mem_filter.1 h).1)
  rw [hsplit, List.filter_append, List.filter_cons_of_pos hp, List.idxOf_append_of_notMem hbelow, List.idxOf_cons_self,
    Nat.add_zero]

theorem mem_take_filter_range {p : Nat → Bool} {i n k : Nat} (hi : i < n) :
    i ∈ ((List.range n).filter p).take k ↔ p i = true ∧ ((List.range i).filter p).length < k := by
  have hfilter : i ∈ (List.range n).filter p ↔ p i = true := by simp [hi]
  constructor
  · intro h
    have hp : p i = true := hfilter.1 (List.mem_of_mem_take h)
    rw [List.mem_take_iff_idxOf_lt (hfilter.2 hp), idxOf_filter_range hi hp] at h
    exact ⟨hp, h⟩
  · rintro ⟨hp, h⟩
    rwa [List.mem_take_iff_idxOf_lt (hfilter.2 hp), idxOf_filter_range hi hp]

/-! ### The entries found -/

/-- The visibility test in integers and its form without subtraction agree (41_oam_scan.md R152). -/
theorem visibleOn_oamEntry (s : State) (i : Fin 40) :
    visibleOn (spriteHeight s.lcdc) s.ly (oamEntry s.oam i) = entryVisible s i := by
  rw [Bool.eq_iff_iff]
  simp only [visibleOn, entryVisible, spriteTop, spriteHeight, oamEntry_y, Bool.and_eq_true, decide_eq_true_eq]
  split <;> omega

theorem scanFound_eq_map (s : State) :
    scanFound s = (((List.finRange 40).filter (fun i : Fin 40 => entryVisible s i)).take 10).map (oamEntry s.oam) := by
  have hvisible : visibleOn (spriteHeight s.lcdc) s.ly ∘ oamEntry s.oam = fun i : Fin 40 => entryVisible s i :=
    funext (visibleOn_oamEntry s)
  rw [scanFound, List.filter_map, hvisible, List.map_take]

/-- The scan finds the first ten visible entries (41_oam_scan.md R153). -/
theorem map_index_scanFound (s : State) :
    (scanFound s).map (fun e => e.index.val) = ((List.range 40).filter (entryVisible s)).take 10 := by
  rw [scanFound_eq_map, List.map_map, List.map_take, ← List.map_coe_finRange_eq_range, List.filter_map]
  rfl

theorem map_index_oamScan_perm (s : State) :
    ((oamScan s).sel.map (fun e => e.index.val)).Perm (((List.range 40).filter (entryVisible s)).take 10) :=
  map_index_scanFound s ▸ (sortByX_perm (scanFound s)).map _

/-- What the scan selects is a copy of the entry its index names (10_state.md R41). -/
theorem eq_oamEntry_of_mem_oamScan {s : State} {e : SelEntry} (he : e ∈ (oamScan s).sel) :
    e = oamEntry s.oam e.index := by
  have hfound : e ∈ scanFound s := mem_sortByX.1 he
  rw [scanFound_eq_map] at hfound
  obtain ⟨i, -, rfl⟩ := List.mem_map.1 hfound
  rfl

theorem exists_mem_oamScan_iff (s : State) (i : Fin 40) :
    (∃ e ∈ (oamScan s).sel, e.index = i) ↔
      (entryVisible s i = true ∧ ((List.range i.val).filter (entryVisible s)).length < 10) := by
  rw [← mem_take_filter_range i.isLt, ← (map_index_oamScan_perm s).mem_iff, List.mem_map]
  simp only [Fin.val_inj]

theorem oamScan_nodup_index (s : State) : ((oamScan s).sel.map SelEntry.index).Nodup :=
  ((sortByX_perm (scanFound s)).map _).nodup_iff.2
    (List.pairwise_map.2 ((scanFound_pairwise_index s).imp fun h => Fin.ne_of_lt h))

/-- Settles O47: the indices selected are the first ten of the visible ones (`map_index_oamScan_perm`), and the place of
an index among them is the number of visible entries before it (`idxOf_filter_range`). -/
theorem scanKeepsFirstTenVisible : Obligations.ScanKeepsFirstTenVisible := by
  intro s
  refine ⟨exists_mem_oamScan_iff s, fun e he => ?_, oamScan_nodup_index s, rfl⟩
  have hcopy : e = oamEntry s.oam e.index := eq_oamEntry_of_mem_oamScan he
  exact ⟨congrArg SelEntry.y hcopy, congrArg SelEntry.x hcopy, congrArg SelEntry.tile hcopy,
    congrArg SelEntry.attr hcopy⟩

end Sys2Proof.Machine
end

section
/-! The pixels of a rendered line by the spec's sums on plain numbers: colour indices, shades and colours, the index the
background and window leave, and the sprite that shows (42_bg_window.md, 43_sprites.md). -/

namespace Sys2Proof.Machine

/-! ### Tiles, shades and colours -/

theorem toNat_ofBool_getLsbD (v : Byte) (b : Nat) : (BitVec.ofBool (v.getLsbD b)).toNat = v.toNat / 2 ^ b % 2 := by
  rw [BitVec.toNat_ofBool, ← BitVec.testBit_toNat, Nat.toNat_testBit]

/-- The two planes' bits of a tile row, weighted 1 and 2 (20_memory.md R64). -/
theorem toNat_rowPixel (vram : Memory 8) (ta b : Nat) :
    (rowPixel vram ta b).toNat =
      (memRead vram ta).toNat / 2 ^ b % 2 + 2 * ((memRead vram (ta + 1)).toNat / 2 ^ b % 2) := by
  have hlo : (memRead vram ta).toNat / 2 ^ b % 2 < 2 ^ 1 := Nat.mod_lt _ (by decide)
  rw [rowPixel, tilePixel, BitVec.toNat_append, toNat_ofBool_getLsbD, toNat_ofBool_getLsbD,
    ← Nat.shiftLeft_add_eq_or_of_lt hlo, Nat.shiftLeft_eq]
  omega

/-- Signed addressing reaches the unsigned address where the identifier is 128 or more (20_memory.md R65). -/
theorem bgTileAddr_eq (lcdc id : Byte) :
    bgTileAddr lcdc id = if tileSel lcdc || 128 ≤ id.toNat then 16 * id.toNat else 4096 + 16 * id.toNat := by
  unfold bgTileAddr
  cases tileSel lcdc
  · have hsigned := BitVec.toInt_eq_toNat_cond id
    by_cases hid : 128 ≤ id.toNat <;> simp [hid] <;> omega
  · rfl

theorem toNat_mapPixel (vram : Memory 8) (lcdc : Byte) (m x y : Nat) :
    (mapPixel vram lcdc m x y).toNat = tileIndexAt vram (tileSel lcdc) m x y := by
  rw [mapPixel, toNat_rowPixel, bgTileAddr_eq]
  rfl

theorem toNat_shadeOf (p : Byte) (ci : ColourIndex) : (shadeOf p ci).toNat = shadeNumber p ci.toNat := by
  rw [shadeOf, shadeNumber, BitVec.extractLsb'_toNat, Nat.shiftRight_eq_div_pow, Nat.pow_mul]

/-- The stored bytes of a colour (42_bg_window.md R173). -/
theorem getD_colourBytes_colourAt (t : ColorTable) (shade : Shade) {c : Nat} (hc : c < 4) :
    (colourBytes (colourAt t shade)).getD c 0 = colourByte t shade.toNat c := by
  have hcolour : colourAt t shade =
      if shade.toNat = 0 then t.shade0 else if shade.toNat = 1 then t.shade1
      else if shade.toNat = 2 then t.shade2 else t.shade3 := by
    unfold colourAt
    split <;> simp_all
  rw [colourByte, ← hcolour]
  interval_cases c <;> rfl

/-! ### What the background and window leave -/

theorem toNat_bgIndex (s : State) (px : Nat) :
    (bgIndex s px).toNat =
      if bgEn s.lcdc && s.params.layerBg then
        tileIndexAt s.vram (tileSel s.lcdc) (if bgMap s.lcdc then 0x1C00 else 0x1800)
          ((s.scx.toNat + px) % 256) ((s.scy.toNat + s.ly.toNat) % 256)
      else 0 := by
  unfold bgIndex bgOn
  split
  · rw [toNat_mapPixel]; rfl
  · rfl

theorem windowShows_eq (s : State) (px : Nat) : (windowRuns s && isWindowPixel s px) = windowShows s px := by
  have hleft : windowLeft s ≤ px ↔ s.wx.toNat ≤ px + 7 := by unfold windowLeft; omega
  simp only [windowRuns, isWindowPixel, windowShows, hleft, Bool.and_assoc]

/-- The window's column `px - (WX - 7)` (42_bg_window.md R178). -/
theorem toNat_windowIndex (s : State) (px : Nat) :
    (windowIndex s px).toNat =
      tileIndexAt s.vram (tileSel s.lcdc) (if winMap s.lcdc then 0x1C00 else 0x1800) (px + 7 - s.wx.toNat)
        s.winLine.toNat := by
  have hcol : ((px : Int) - windowLeft s).toNat = px + 7 - s.wx.toNat := by unfold windowLeft; omega
  rw [windowIndex, toNat_mapPixel, hcol]
  rfl

/-- The colour index under the sprites: the window's where it shows, else the background's. -/
theorem toNat_ci_windowOver_bgPixel (s : State) (px : Nat) :
    (windowOver s px (bgPixel s px)).ci.toNat = shadowIndexAt s px := by
  unfold windowOver shadowIndexAt
  rw [windowShows_eq]
  split
  · exact toNat_windowIndex s px
  · exact toNat_bgIndex s px

/-! ### Sprites -/

theorem toNat_and_evenMask (v : Byte) : (v &&& 0xFE).toNat = v.toNat / 2 * 2 := by
  revert v; decide

theorem spriteCovers_iff (e : SelEntry) (px : Nat) :
    spriteCovers e px = true ↔ e.x.toNat ≤ px + 8 ∧ px + 8 < e.x.toNat + 8 := by
  rw [spriteCovers, Bool.and_eq_true, decide_eq_true_eq, decide_eq_true_eq, spriteCol]
  omega

theorem spriteTile_eq (lcdc : Byte) (e : SelEntry) :
    spriteTile lcdc e = if objSize lcdc then e.tile.toNat / 2 * 2 else e.tile.toNat := by
  rw [spriteTile, toNat_and_evenMask]

theorem spriteRow_eq (s : State) (e : SelEntry) :
    spriteRow s e =
      if attrYFlip e.attr then spriteHeight s.lcdc - 1 - spriteRowNumber s e (spriteHeight s.lcdc)
      else spriteRowNumber s e (spriteHeight s.lcdc) := by
  have hrow : (s.ly.toNat : Int) - spriteTop e = s.ly.toNat + 16 - e.y.toNat := by unfold spriteTop; omega
  unfold spriteRow spriteRowNumber
  rw [hrow]

/-- The index of a sprite by the sums of 43_sprites.md R202 to R207. -/
theorem toNat_spriteIndex (s : State) (e : SelEntry) (px : Nat) :
    (spriteIndex s e px).toNat = spriteIndexAt s e px := by
  have hcol : (spriteCol e px).toNat = px + 8 - e.x.toNat := by unfold spriteCol; omega
  rw [spriteIndex, toNat_rowPixel, spriteTile_eq, spriteRow_eq, hcol]
  rfl

/-- Over the index the background and window leave, a sprite writes exactly where it shows. -/
theorem spriteWrites_eq_spriteShows {s : State} {px : Nat} {ci : ColourIndex} (hci : ci.toNat = shadowIndexAt s px)
    (e : SelEntry) : spriteWrites s e px ci = spriteShows s px e := by
  have hzero (c : ColourIndex) : c = 0 ↔ c.toNat = 0 := BitVec.toNat_inj.symm
  rw [Bool.eq_iff_iff]
  simp only [spriteWrites, spriteShows, Bool.and_eq_true, Bool.or_eq_true, spriteCovers_iff, bne_iff_ne, beq_iff_eq,
    decide_eq_true_eq, ne_eq, hzero, hci, toNat_spriteIndex]

/-- The first element of the selection, drawn last, leaves its own colour where it shows (43_sprites.md R201, R209). -/
theorem linePixel_colour_of_head_shows {s : State} {e : SelEntry} {rest : List SelEntry} {px : Nat}
    (hsel : s.sel = e :: rest) (hrun : spritesRun s = true) (hshows : spriteShows s px e = true) :
    (linePixel s px).colour =
      colourAt s.params.colorTable (shadeOf (spritePalette s e) (spriteIndex s e px)) := by
  have hci : (rest.foldr (spriteOver s px) (windowOver s px (bgPixel s px))).ci.toNat = shadowIndexAt s px := by
    rw [foldr_spriteOver_ci, toNat_ci_windowOver_bgPixel]
  rw [linePixel, spritesOver, if_pos hrun, hsel, List.foldr_cons, spriteOver,
    if_pos ((spriteWrites_eq_spriteShows hci e).trans hshows)]

/-- The bytes WORK holds where the first element shows. -/
theorem memRead_renderLine_work_of_head_shows {s : State} {e : SelEntry} {rest : List SelEntry} {px c : Nat}
    (hsel : s.sel = e :: rest) (hpx : px < 160) (hc : c < 4) (hrun : spritesRun s = true)
    (hshows : spriteShows s px e = true) :
    memRead (renderLine s).work (4 * (160 * s.ly.toNat + px) + c) =
      colourByte s.params.colorTable
        (shadeNumber (if attrPal e.attr then s.obp1 else s.obp0) (spriteIndexAt s e px)) c := by
  rw [memRead_renderLine_work s hpx hc, linePixel_colour_of_head_shows hsel hrun hshows,
    getD_colourBytes_colourAt _ _ hc, toNat_shadeOf, toNat_spriteIndex]
  rfl

/-- Settles O48: the order is that of the stable sort (`selOrdered_oamScan`), the elements are those found
(`map_index_oamScan_perm`), and the head of the selection is drawn last (`linePixel_colour_of_head_shows`). -/
theorem scanOrdersByXThenIndex : Obligations.ScanOrdersByXThenIndex := by
  intro s
  refine ⟨selOrdered_oamScan s, map_index_oamScan_perm s, fun e rest px c hsel hpx hc hobj hlayer hshows => ?_⟩
  have hrun : spritesRun (oamScan s) = true := Bool.and_eq_true_iff.2 ⟨hobj, hlayer⟩
  exact memRead_renderLine_work_of_head_shows hsel hpx hc hrun hshows

end Sys2Proof.Machine
end

section
/-! The frame invariants (10_state.md R28, R38, 42_bg_window.md R166, R183): where a STEP can fault, and that every step
keeps LY inside the frame and the window's rows below the lines rendered. -/

namespace Sys2Proof.Machine

/-! ### Where a step can fault -/

/-- A STEP faults only where its table starts in DRAW at a line outside the frame (42_bg_window.md R166). -/
theorem execStep_fault {n : BitVec 28} {s : State} {f : Fault} (h : execStep n s = .fault f) :
    (tableStart n s).mode = .draw ∧ 144 ≤ (tableStart n s).ly.toNat := by
  cases hl : lcdEn s.lcdc with
  | false => simp [execStep_disabled hl] at h
  | true =>
    by_cases hc : startCycles s + n.toNat < Config.cycleLimit
    · obtain ⟨u, hu⟩ | ⟨-, hm, -, hly⟩ := transition_outcome (!anyStat s.stat s.mode) (tableStart n s)
      · simp [execStep_of_transition hl hc hu] at h
      · exact ⟨hm, hly⟩
    · simp [execStep_overflow hl (Nat.not_lt.1 hc)] at h

/-- STEP is the one command that can fault (60_exceptions.md R281). -/
theorem exec_fault {i : Instr} {s : State} {f : Fault} (h : exec i s = .fault f) :
    ∃ n, execStep n s = .fault f := by
  cases i with
  | step n => exact ⟨n, h⟩
  | regRd addr | regWr addr _ =>
    simp only [exec, execRegRd, execRegWr] at h
    split at h <;> cases h
  | oamRd addr | oamWr addr _ | frameRd idx =>
    simp only [exec, execOamRd, execOamWr, execFrameRd] at h
    split at h <;> cases h
  | resetHard | resetSoft | postBoot | vramRd addr | vramWr addr _ | dma page => cases h

theorem step_fault {s : State} {f : Fault} (h : step s = .fault f) :
    ∃ n rest, execStep n { s with commands := rest } = .fault f := by
  unfold step at h
  split at h
  next => cases h
  next w rest _ =>
    split at h
    next => exact (exec_fault h).imp fun n hn => ⟨rest, hn⟩
    next => cases h

/-! ### The line stays inside the frame -/

theorem inFrame_of_ly_eq_zero {s : State} (hly : s.ly = 0) (hp : PostBootInFrame s.params) : InFrame s where
  line := by simp [hly]
  active := by simp [hly]
  hblank := by simp [hly]
  params := hp

theorem tableStart_wasDisabled (n : BitVec 28) (s : State) : (tableStart n s).wasDisabled = false :=
  wake_wasDisabled (clearOutputs s)

theorem tableStart_params (n : BitVec 28) (s : State) : (tableStart n s).params = s.params :=
  wake_params (clearOutputs s)

/-- Where no re-enable soft reset is owed the table starts from `s` with the cycles counted (40_step.md R116). -/
theorem tableStart_of_not_wasDisabled {s : State} (h : s.wasDisabled = false) (n : BitVec 28) :
    tableStart n s = { clearOutputs s with cycles := (tableStart n s).cycles } := by
  rw [tableStart, accumulate, wake_of_not_wasDisabled (s := clearOutputs s) h]

/-- The re-enable soft reset returns to line 0 and pays off the latch, without which LY is where it was. -/
theorem inFrame_tableStart {s : State} (hs : InFrame s) (n : BitVec 28) : InFrame (tableStart n s) := by
  cases hd : s.wasDisabled with
  | false =>
    rw [tableStart_of_not_wasDisabled hd]
    exact { hs with }
  | true =>
    have hly : (tableStart n s).ly = 0 := by simp [hd]
    exact inFrame_of_ly_eq_zero hly (tableStart_params n s ▸ hs.params)

theorem toNat_ly_add_one {s : State} (h : s.ly.toNat ≤ 153) : (s.ly + 1).toNat = s.ly.toNat + 1 :=
  BitVec.toNat_add_of_lt (show s.ly.toNat + 1 < 2 ^ 8 by omega)

/-- LY moves on past 143 only into VBLANK (40_step.md R123), and past 153 only to 0 (R127). -/
theorem inFrame_completes {allowed : Bool} {s t : State} (hs : InFrame s) (hd : s.wasDisabled = false)
    (h : Completes allowed s t) : InFrame t := by
  have hnext := toNat_ly_add_one hs.line
  cases h with
  | scan hm =>
    have hly : s.ly.toNat ≤ 143 := hs.active (.inl hm)
    exact ⟨hs.line, fun _ => hly, fun _ _ => hly, hs.params⟩
  | render hm hlt => exact ⟨hs.line, fun _ => Nat.le_of_lt_succ hlt, fun _ _ => Nat.le_of_lt_succ hlt, hs.params⟩
  | enterVblank hm hly => exact ⟨(congrArg BitVec.toNat hly).trans_le (by decide), by simp, by simp, hs.params⟩
  | enterOam hm hly =>
    have hlast : s.ly.toNat ≤ 143 := hs.hblank hm hd
    have hlt : (s.ly + 1).toNat ≤ 143 := by
      have : (s.ly + 1).toNat ≠ 144 := fun heq => hly (BitVec.eq_of_toNat_eq heq)
      omega
    exact ⟨hlt.trans (by decide), fun _ => hlt, fun _ _ => hlt, hs.params⟩
  | vblankLine hm hlt => exact ⟨hnext ▸ hlt, by simp [hm], by simp [hm], hs.params⟩
  | wrap => exact inFrame_of_ly_eq_zero rfl hs.params

/-- A display that is off rests at any line in HBLANK (40_step.md R112). -/
theorem inFrame_disabledStep {s : State} (hs : InFrame s) : InFrame (disabledStep s) where
  line := hs.line
  active := by simp
  hblank := by simp
  params := hs.params

theorem inFrame_execStep {n : BitVec 28} {s t : State} (hs : InFrame s) (h : execStep n s = .next t) : InFrame t := by
  obtain ⟨-, rfl⟩ | ⟨-, -, u, hu, rfl⟩ := execStep_next_cases h
  · exact inFrame_disabledStep { hs with }
  · have hstart : InFrame (tableStart n s) := inFrame_tableStart hs n
    have hdone : InFrame u := by
      obtain ⟨-, rfl⟩ | ⟨-, hu⟩ := completes_of_transition hu
      · exact hstart
      · have hpaid : InFrame (payDuration (tableStart n s)) := { hstart with }
        exact inFrame_completes hpaid (tableStart_wasDisabled n s) hu
    exact { hdone with }

/-- A host write leaves LY and the mode (44_access.md R228). -/
theorem inFrame_hostWriteReg {s : State} (hs : InFrame s) (v : Byte) (r : Reg) : InFrame (hostWriteReg s v r) where
  line := by simpa using hs.line
  active := by simpa using hs.active
  hblank := by simpa using hs.hblank
  params := by simpa using hs.params

/-- POST_BOOT sets LY and the mode to parameters that agree (45_control.md R265). -/
theorem inFrame_postBoot {s : State} (h : PostBootInFrame s.params) :
    InFrame { loadPostBootRegs (clearOutputs s) s.params.postBoot with mode := s.params.postBootMode } where
  line := h.line
  active := fun hm => h.active fun (heq : s.params.postBootMode = .vblank) => by simp [heq] at hm
  hblank := fun hm _ => h.active fun (heq : s.params.postBootMode = .vblank) => by simp [heq] at hm
  params := h

theorem inFrame_of_answers {i : Instr} {s t : State} (hs : InFrame s) (h : Answers s i t) : InFrame t := by
  have hclear : InFrame (clearOutputs s) := { hs with }
  cases h with
  | step h => exact inFrame_execStep hs h
  | resetHard | resetSoft => exact inFrame_of_ly_eq_zero rfl hs.params
  | postBoot => exact inFrame_postBoot hs.params
  | regWr => exact inFrame_hostWriteReg hclear _ _
  | regRd | vramRd | vramWr | oamRd | oamWr | dma | frameRd => exact { hclear with }

/-- Settles O58: a fault needs DRAW at line 144 or more (`execStep_fault`), which InFrame excludes where the table
starts (`inFrame_tableStart`), and every command keeps InFrame (`inFrame_of_answers`). -/
theorem inFrameStepsNeverFault : Obligations.InFrameStepsNeverFault := by
  intro s hs
  have htaken (rest : List Word) : InFrame { s with commands := rest } := { hs with }
  constructor
  · intro f hf
    obtain ⟨n, rest, hf⟩ := step_fault hf
    obtain ⟨hm, hly⟩ := execStep_fault hf
    have hlast := (inFrame_tableStart (htaken rest) n).active (.inr hm)
    omega
  · intro t ht
    obtain ⟨-, rfl⟩ | ⟨w, rest, i, -, -, hi⟩ := step_next_cases ht
    · exact hs
    · exact inFrame_of_answers (htaken rest) hi

/-! ### The window's rows -/

theorem windowBounded_of_winLine_eq_zero {s : State} (hwin : s.winLine = 0) (hf : InFrame s)
    (hp : s.params.postBootMode = .vblank) : WindowBounded s where
  inFrame := hf
  bound := by simp [hwin]
  active := by simp [hwin]
  hblank := by simp [hwin]
  params := hp

theorem windowBounded_tableStart {s : State} (hs : WindowBounded s) (n : BitVec 28) :
    WindowBounded (tableStart n s) := by
  have hf : InFrame (tableStart n s) := inFrame_tableStart hs.inFrame n
  cases hd : s.wasDisabled with
  | false =>
    rw [tableStart_of_not_wasDisabled hd] at hf ⊢
    exact { hs with inFrame := hf }
  | true =>
    have hwin : (tableStart n s).winLine = 0 := by simp [hd]
    exact windowBounded_of_winLine_eq_zero hwin hf (tableStart_params n s ▸ hs.params)

theorem renderLine_winLine_le (s : State) : (renderLine s).winLine.toNat ≤ s.winLine.toNat + 1 := by
  rw [renderLine_winLine]
  split
  · exact (BitVec.toNat_add _ _).trans_le (Nat.mod_le _ _)
  · exact Nat.le_succ _

/-- A render uses at most one row (42_bg_window.md R182), and LY moves on by 1 between two renders (40_step.md R122). -/
theorem windowBounded_completes {allowed : Bool} {s t : State} (hs : WindowBounded s) (hd : s.wasDisabled = false)
    (h : Completes allowed s t) : WindowBounded t := by
  have hf : InFrame t := inFrame_completes hs.inFrame hd h
  cases h with
  | scan hm => exact ⟨hf, hs.bound, fun _ _ => hs.active hd (.inl hm), by simp, hs.params⟩
  | render hm hly =>
    have hrow : (renderLine s).winLine.toNat ≤ s.ly.toNat + 1 :=
      (renderLine_winLine_le s).trans (Nat.succ_le_succ (hs.active hd (.inr hm)))
    exact ⟨hf, hrow.trans hly, by simp, fun _ _ => hrow, hs.params⟩
  | enterVblank hm => exact ⟨hf, hs.bound, by simp, by simp, hs.params⟩
  | enterOam hm =>
    have hrow : s.winLine.toNat ≤ (s.ly + 1).toNat :=
      (hs.hblank hd hm).trans_eq (toNat_ly_add_one hs.inFrame.line).symm
    exact ⟨hf, hs.bound, fun _ _ => hrow, by simp, hs.params⟩
  | vblankLine hm => exact ⟨hf, hs.bound, by simp [hm], by simp [hm], hs.params⟩
  | wrap => exact windowBounded_of_winLine_eq_zero rfl hf hs.params

theorem windowBounded_execStep {n : BitVec 28} {s t : State} (hs : WindowBounded s) (h : execStep n s = .next t) :
    WindowBounded t := by
  have hf : InFrame t := inFrame_execStep hs.inFrame h
  obtain ⟨-, rfl⟩ | ⟨-, -, u, hu, rfl⟩ := execStep_next_cases h
  · exact ⟨hf, hs.bound, by simp, by simp, hs.params⟩
  · have hstart : WindowBounded (tableStart n s) := windowBounded_tableStart hs n
    have hdone : WindowBounded u := by
      obtain ⟨-, rfl⟩ | ⟨-, hu⟩ := completes_of_transition hu
      · exact hstart
      · have hpaid : WindowBounded (payDuration (tableStart n s)) :=
          { hstart with inFrame := { hstart.inFrame with } }
        exact windowBounded_completes hpaid (tableStart_wasDisabled n s) hu
    exact { hdone with inFrame := hf }

theorem windowBounded_hostWriteReg {s : State} (hs : WindowBounded s) (v : Byte) (r : Reg) :
    WindowBounded (hostWriteReg s v r) where
  inFrame := inFrame_hostWriteReg hs.inFrame v r
  bound := by simpa using hs.bound
  active := by simpa using hs.active
  hblank := by simpa using hs.hblank
  params := by simpa using hs.params

theorem windowBounded_of_answers {i : Instr} {s t : State} (hs : WindowBounded s) (h : Answers s i t) :
    WindowBounded t := by
  have hf : InFrame t := inFrame_of_answers hs.inFrame h
  have hclear : WindowBounded (clearOutputs s) := { hs with inFrame := { hs.inFrame with } }
  cases h with
  | step h => exact windowBounded_execStep hs h
  | resetHard | resetSoft => exact windowBounded_of_winLine_eq_zero rfl hf hs.params
  | postBoot => exact ⟨hf, hs.bound, by simp [hs.params], by simp [hs.params], hs.params⟩
  | regWr => exact windowBounded_hostWriteReg hclear _ _
  | regRd | vramRd | vramWr | oamRd | oamWr | dma | frameRd => exact { hs with inFrame := hf }

/-- Settles O59: a step waits, or performs one command, which keeps the bounds (`windowBounded_of_answers`). -/
theorem windowRowsNeverExceedLines : Obligations.WindowRowsNeverExceedLines := by
  intro s t hs h
  obtain ⟨-, rfl⟩ | ⟨w, rest, i, -, -, hi⟩ := step_next_cases h
  · exact hs
  · have htaken : WindowBounded { s with commands := rest } := { hs with inFrame := { hs.inFrame with } }
    exact windowBounded_of_answers htaken hi

end Sys2Proof.Machine
end

section
/-! The window's row counter (42_bg_window.md R181, R182). -/

namespace Sys2Proof.Machine

theorem isWindowPixel_iff (s : State) (px : Nat) :
    isWindowPixel s px = true ↔ s.wy.toNat ≤ s.ly.toNat ∧ s.wx.toNat ≤ px + 7 := by
  rw [isWindowPixel, Bool.and_eq_true, decide_eq_true_eq, decide_eq_true_eq, windowLeft]
  omega

/-- The last column of the line is a window pixel whenever any is: WX is at most 166 (42_bg_window.md R177). -/
theorem any_isWindowPixel_iff (s : State) :
    (List.range Config.lineWidth).any (isWindowPixel s) = true ↔ s.wy.toNat ≤ s.ly.toNat ∧ s.wx.toNat ≤ 166 := by
  simp only [List.any_eq_true, List.mem_range, isWindowPixel_iff]
  constructor
  · rintro ⟨px, hpx, hy, hx⟩
    have hlast : px < 160 := hpx
    exact ⟨hy, by omega⟩
  · rintro ⟨hy, hx⟩
    exact ⟨159, by decide, hy, hx⟩

theorem windowDrawn_iff (s : State) :
    windowDrawn s = true ↔
      winEn s.lcdc ∧ s.winFlag ∧ s.params.layerWin ∧ s.wy.toNat ≤ s.ly.toNat ∧ s.wx.toNat ≤ 166 := by
  rw [windowDrawn, Bool.and_eq_true, any_isWindowPixel_iff, windowRuns]
  simp only [Bool.and_eq_true, and_assoc]

/-- Settles O52: a render counts exactly when the window pass drew (`windowDrawn_iff`). -/
theorem windowLineAdvancesWhenDrawn : Obligations.WindowLineAdvancesWhenDrawn := by
  intro s
  rw [renderLine_winLine]
  simp only [← windowDrawn_iff]
  split
  · exact BitVec.toNat_add _ _
  · rfl

end Sys2Proof.Machine
end

section
/-! Block writes right after and inside a block already written: of any list, canonical or not (20_memory.md R60). -/

namespace Sys2Proof.Machine

variable {w : Nat}

theorem memCells_append (base : Nat) (a b : List (BitVec w)) :
    memCells base (a ++ b) = memCells base a ++ memCells (base + a.length) b := by
  induction a generalizing base with
  | nil => rfl
  | cons v a ih =>
    have hlen : base + (v :: a).length = base + 1 + a.length := by rw [List.length_cons]; omega
    rw [List.cons_append, hlen]
    by_cases hv : v = 0
    · rw [hv, memCells_cons_zero, memCells_cons_zero, ih]
    · rw [memCells_cons_ne hv, memCells_cons_ne hv, ih, List.cons_append]

/-- A block write drops the cells inside the block and keeps those on either side in their order. -/
theorem memWriteBlock_of_split {l c r : Memory w} {i : Nat} {new : List (BitVec w)} (hl : ∀ x ∈ l, x.1 < i)
    (hc : ∀ x ∈ c, i ≤ x.1 ∧ x.1 < i + new.length) (hr : ∀ x ∈ r, i ≤ x.1) :
    memWriteBlock (l ++ (c ++ r)) i new = l ++ memCells i new ++ r.filter (fun x => i + new.length ≤ x.1) := by
  have hbelow : (l ++ (c ++ r)).filter (fun x => decide (x.1 < i)) = l := by
    rw [List.filter_append, List.filter_eq_self.2 (by simpa using hl), List.append_right_eq_self, List.filter_eq_nil_iff]
    intro x hx
    rcases List.mem_append.1 hx with h | h
    · simpa using (hc x h).1
    · simpa using hr x h
  have habove : (l ++ (c ++ r)).filter (fun x => decide (i + new.length ≤ x.1)) =
      r.filter (fun x => i + new.length ≤ x.1) := by
    rw [← List.append_assoc, List.filter_append, List.append_left_eq_self, List.filter_eq_nil_iff]
    intro x hx
    rcases List.mem_append.1 hx with h | h
    · simpa using (hl x h).trans_le (Nat.le_add_right _ _)
    · simpa using (hc x h).2
  rw [memWriteBlock, hbelow, habove]

/-- A block written, split in front of the values `b`. -/
theorem memWriteBlock_append (m : Memory w) (base : Nat) (a b : List (BitVec w)) :
    memWriteBlock m base (a ++ b) =
      (m.filter (fun c => c.1 < base) ++ memCells base a) ++
        (memCells (base + a.length) b ++ m.filter (fun c => base + a.length + b.length ≤ c.1)) := by
  simp only [memWriteBlock, memCells_append, List.append_assoc, List.length_append, Nat.add_assoc]

theorem fst_lt_of_mem_below {m : Memory w} {base : Nat} {a : List (BitVec w)} {x : Nat × BitVec w}
    (hx : x ∈ m.filter (fun c => c.1 < base) ++ memCells base a) : x.1 < base + a.length := by
  rcases List.mem_append.1 hx with h | h
  · have : x.1 < base := by simpa using (List.mem_filter.1 h).2
    omega
  · exact (mem_memCells h).2.1

theorem le_fst_of_mem_above {m : Memory w} {k : Nat} {x : Nat × BitVec w} (hx : x ∈ m.filter (fun c => k ≤ c.1)) :
    k ≤ x.1 := by
  simpa using (List.mem_filter.1 hx).2

/-- A block write right after a block just written makes the block longer. -/
theorem memWriteBlock_memWriteBlock_append (m : Memory w) (base : Nat) (a new : List (BitVec w)) :
    memWriteBlock (memWriteBlock m base a) (base + a.length) new = memWriteBlock m base (a ++ new) := by
  have hkept : (m.filter (fun c => base + a.length ≤ c.1)).filter (fun c => base + a.length + new.length ≤ c.1) =
      m.filter (fun c => base + a.length + new.length ≤ c.1) := by
    rw [List.filter_filter]
    congr 1
    funext c
    rw [← Bool.decide_and, decide_eq_decide]
    omega
  have hsplit := memWriteBlock_of_split (c := []) (new := new)
    (fun _ => fst_lt_of_mem_below (m := m) (base := base) (a := a)) (by simp) (fun _ => le_fst_of_mem_above (m := m))
  rw [List.nil_append, hkept] at hsplit
  rw [memWriteBlock_append, ← List.append_assoc, ← hsplit]
  rfl

/-- A block write inside a block just written replaces the values there. -/
theorem memWriteBlock_memWriteBlock_inside (m : Memory w) (base : Nat) (a b : List (BitVec w))
    {old new : List (BitVec w)} (h : old.length = new.length) :
    memWriteBlock (memWriteBlock m base (a ++ (old ++ b))) (base + a.length) new =
      memWriteBlock m base (a ++ (new ++ b)) := by
  have hc : ∀ x ∈ memCells (base + a.length) old, base + a.length ≤ x.1 ∧ x.1 < base + a.length + new.length :=
    fun x hx => ⟨(mem_memCells hx).1, h ▸ (mem_memCells hx).2.1⟩
  have hr : ∀ x ∈ memCells (base + a.length + new.length) b ++
      m.filter (fun c => base + a.length + (new ++ b).length ≤ c.1), base + a.length + new.length ≤ x.1 := by
    intro x hx
    rcases List.mem_append.1 hx with hx | hx
    · exact (mem_memCells hx).1
    · have := le_fst_of_mem_above hx
      rw [List.length_append] at this
      omega
  have hlen : (old ++ b).length = (new ++ b).length := by simp [h]
  rw [memWriteBlock_append m base a (old ++ b), memCells_append, h, hlen, List.append_assoc (memCells _ old),
    memWriteBlock_of_split (fun _ => fst_lt_of_mem_below) hc fun x hx => (Nat.le_add_right _ _).trans (hr x hx),
    List.filter_eq_self.2 fun x hx => decide_eq_true (hr x hx), memWriteBlock_append m base a (new ++ b),
    memCells_append]
  simp only [List.append_assoc]

end Sys2Proof.Machine
end

section
/-! The line render as the spec's three loops of single writes (42_bg_window.md R167, R176, 43_sprites.md R200). The
loops write inside one line, so every state on their way is `drawnLine` of some pixels, and each write changes one of
them. -/

namespace Sys2Proof.Machine

/-! ### A line of pixels written into SHADOW and WORK -/

/-- `s` with the first pixels of line LY written, in SHADOW and in WORK. `renderLine` is of this form. -/
def drawnLine (s : State) (line : List Pixel) : State :=
  { s with
    shadow := memWriteBlock s.shadow (shadowLineBase s.ly) (line.map Pixel.ci)
    work := memWriteBlock s.work (workLineBase s.ly) (line.flatMap (fun p => colourBytes p.colour)) }

/-- The 160 columns of a line. -/
def columns (f : Nat → Pixel) : List Pixel := (List.range 160).map f

theorem renderLine_eq_drawnLine (s : State) :
    renderLine s = drawnLine { s with winLine := (renderLine s).winLine } (columns (linePixel s)) := rfl

theorem columns_congr {f g : Nat → Pixel} (h : ∀ px < 160, f px = g px) : columns f = columns g :=
  List.map_congr_left fun px hpx => h px (List.mem_range.1 hpx)

/-- The four byte writes of PutPixel are one block (42_bg_window.md R173). -/
theorem putPixel_eq (px : Nat) (ly : Byte) (c : Colour) (s : State) :
    putPixel px ly c s = { s with work := memWriteBlock s.work (4 * (160 * ly.toNat + px)) (colourBytes c) } := by
  have hgreen (k : Nat) : memWriteBlock (memWriteBlock s.work k [c.r]) (k + 1) [c.g] =
      memWriteBlock s.work k [c.r, c.g] := memWriteBlock_memWriteBlock_append s.work k [c.r] [c.g]
  have hblue (k : Nat) : memWriteBlock (memWriteBlock s.work k [c.r, c.g]) (k + 2) [c.b] =
      memWriteBlock s.work k [c.r, c.g, c.b] := memWriteBlock_memWriteBlock_append s.work k [c.r, c.g] [c.b]
  have halpha (k : Nat) : memWriteBlock (memWriteBlock s.work k [c.r, c.g, c.b]) (k + 3) [c.a] =
      memWriteBlock s.work k (colourBytes c) := memWriteBlock_memWriteBlock_append s.work k [c.r, c.g, c.b] [c.a]
  simp only [putPixel, memWrite, hgreen, hblue, halpha]

/-- What the background and window bodies write at a column: the index, then the colour (42_bg_window.md R173, R174). -/
def drawPixel (px : Nat) (p : Pixel) (s : State) : State :=
  putPixel px s.ly p.colour (putShadow px s.ly p.ci s)

theorem drawPixel_zero (s : State) (p : Pixel) : drawPixel 0 p s = drawnLine s [p] := by
  have haddr : workLineBase s.ly = 4 * (160 * s.ly.toNat + 0) := by unfold workLineBase; omega
  simp only [drawPixel, putPixel_eq, putShadow, memWrite, drawnLine, List.map_singleton, List.flatMap_singleton, haddr]
  rfl

theorem drawPixel_drawnLine_append (s : State) (line : List Pixel) (p : Pixel) :
    drawPixel line.length p (drawnLine s line) = drawnLine s (line ++ [p]) := by
  have hshadow := memWriteBlock_memWriteBlock_append s.shadow (shadowLineBase s.ly) (line.map Pixel.ci) [p.ci]
  have hwork := memWriteBlock_memWriteBlock_append s.work (workLineBase s.ly)
    (line.flatMap (fun p => colourBytes p.colour)) (colourBytes p.colour)
  have haddr : workLineBase s.ly + 4 * line.length = 4 * (160 * s.ly.toNat + line.length) := by
    unfold workLineBase; omega
  rw [List.length_map] at hshadow
  rw [length_flatMap_colourBytes, haddr] at hwork
  simp only [drawPixel, putPixel_eq, putShadow, memWrite, drawnLine, List.map_append, List.flatMap_append,
    List.map_singleton, List.flatMap_singleton, ← hshadow, ← hwork]
  rfl

theorem putShadow_drawnLine_inside (s : State) (a b : List Pixel) (p : Pixel) (ci : ColourIndex) :
    putShadow a.length s.ly ci (drawnLine s (a ++ p :: b)) = drawnLine s (a ++ { p with ci := ci } :: b) := by
  have hshadow := memWriteBlock_memWriteBlock_inside s.shadow (shadowLineBase s.ly) (a.map Pixel.ci) (b.map Pixel.ci)
    (old := [p.ci]) (new := [ci]) rfl
  rw [List.length_map, List.singleton_append, List.singleton_append, shadowLineBase] at hshadow
  simp only [putShadow, memWrite, drawnLine, shadowLineBase, List.map_append, List.flatMap_append, List.map_cons,
    List.flatMap_cons, hshadow]

theorem putPixel_drawnLine_inside (s : State) (a b : List Pixel) (p : Pixel) (c : Colour) :
    putPixel a.length s.ly c (drawnLine s (a ++ p :: b)) = drawnLine s (a ++ { p with colour := c } :: b) := by
  have hwork := memWriteBlock_memWriteBlock_inside s.work (workLineBase s.ly)
    (a.flatMap (fun p => colourBytes p.colour)) (b.flatMap (fun p => colourBytes p.colour))
    (old := colourBytes p.colour) (new := colourBytes c) rfl
  have haddr : workLineBase s.ly + 4 * a.length = 4 * (160 * s.ly.toNat + a.length) := by
    unfold workLineBase; omega
  rw [length_flatMap_colourBytes, haddr] at hwork
  simp only [putPixel_eq, drawnLine, List.map_append, List.flatMap_append, List.map_cons, List.flatMap_cons, hwork]

theorem range_eq_append_cons {i n : Nat} (h : i < n) :
    List.range n = List.range i ++ i :: List.range' (i + 1) (n - i - 1) := by
  have happend := List.range'_append_1 (s := 0) (m := i) (n := n - i - 1 + 1)
  rw [Nat.zero_add, List.range'_succ, ← List.range_eq_range', ← List.range_eq_range'] at happend
  rw [happend]
  congr 1
  omega

/-- Functions that agree but at column `px` give lines that agree but at that place. -/
theorem exists_columns_split (f : Nat → Pixel) {px : Nat} (h : px < 160) :
    ∃ a b : List Pixel, a.length = px ∧ ∀ g : Nat → Pixel, (∀ q, q ≠ px → g q = f q) → columns g = a ++ g px :: b := by
  have hrange := range_eq_append_cons h
  refine ⟨(List.range px).map f, (List.range' (px + 1) (160 - px - 1)).map f, by simp, fun g hg => ?_⟩
  rw [columns, hrange, List.map_append, List.map_cons]
  congr 1
  · exact List.map_congr_left fun q hq => hg q (List.mem_range.1 hq).ne
  · exact congrArg _ (List.map_congr_left fun q hq => hg q (by have := List.mem_range'_1.1 hq; omega))

theorem putPixel_columns (s : State) (f : Nat → Pixel) {px : Nat} (h : px < 160) (c : Colour) :
    putPixel px s.ly c (drawnLine s (columns f)) =
      drawnLine s (columns (Function.update f px { f px with colour := c })) := by
  obtain ⟨a, b, rfl, hsplit⟩ := exists_columns_split f h
  rw [hsplit f fun _ _ => rfl, putPixel_drawnLine_inside, hsplit _ fun _ hq => Function.update_of_ne hq _ _,
    Function.update_self]

theorem drawPixel_columns (s : State) (f : Nat → Pixel) {px : Nat} (h : px < 160) (p : Pixel) :
    drawPixel px p (drawnLine s (columns f)) = drawnLine s (columns (Function.update f px p)) := by
  obtain ⟨a, b, rfl, hsplit⟩ := exists_columns_split f h
  rw [hsplit f fun _ _ => rfl, hsplit _ fun _ hq => Function.update_of_ne hq _ _, Function.update_self, drawPixel]
  exact (congrArg _ (putShadow_drawnLine_inside s a b _ _)).trans (putPixel_drawnLine_inside s a b _ _)

theorem memRead_drawnLine_shadow (s : State) (f : Nat → Pixel) {px : Nat} (h : px < 160) :
    memRead (drawnLine s (columns f)).shadow (160 * s.ly.toNat + px) = (f px).ci := by
  rw [drawnLine, memRead_memWriteBlock, if_pos (by simp [shadowLineBase, columns]; omega)]
  simp [shadowLineBase, columns, List.getD_eq_getElem?_getD, h]

/-! ### The background loop -/

theorem backgroundBody_drawnLine (s : State) (line : List Pixel) :
    backgroundBody (drawnLine s line) line.length = drawnLine s (line ++ [bgPixel s line.length]) :=
  drawPixel_drawnLine_append s line (bgPixel s line.length)

/-- The background loop fills the line column by column; the state under it lends it no pixel. -/
theorem foldl_backgroundBody (s : State) (n : Nat) :
    (List.range (n + 1)).foldl backgroundBody s = drawnLine s ((List.range (n + 1)).map (bgPixel s)) := by
  induction n with
  | zero => exact drawPixel_zero s (bgPixel s 0)
  | succ n ih =>
    have hbody := backgroundBody_drawnLine s ((List.range (n + 1)).map (bgPixel s))
    rw [List.length_map, List.length_range] at hbody
    rw [List.range_succ, List.foldl_append, ih, List.foldl_cons, List.foldl_nil, hbody, List.map_append,
      List.map_singleton]

theorem renderBackgroundLoop_eq (s : State) : renderBackgroundLoop s = drawnLine s (columns (bgPixel s)) :=
  foldl_backgroundBody s 159

/-! ### The window loop -/

/-- A pass that has done the columns below `n`, each by `g`. -/
def sweep (g : Nat → Pixel → Pixel) (n : Nat) (f : Nat → Pixel) : Nat → Pixel :=
  fun px => if px < n then g px (f px) else f px

theorem sweep_succ (g : Nat → Pixel → Pixel) (n : Nat) (f : Nat → Pixel) :
    sweep g (n + 1) f = Function.update (sweep g n f) n (g n (sweep g n f n)) := by
  funext px
  obtain rfl | hne := eq_or_ne px n
  · simp [sweep]
  · have hiff : px < n + 1 ↔ px < n := by omega
    simp [sweep, hne, hiff]

theorem columns_sweep {g : Nat → Pixel → Pixel} {n : Nat} {f : Nat → Pixel}
    (h : ∀ px, n ≤ px → px < 160 → g px (f px) = f px) :
    columns (sweep g n f) = columns (fun px => g px (f px)) := by
  refine columns_congr fun px hpx => ?_
  unfold sweep
  split
  next => rfl
  next hn => exact (h px (Nat.not_lt.1 hn) hpx).symm

/-- Over a drawn line the window's body does what the pixel-wise pass does at its column (42_bg_window.md R176, R180). -/
theorem windowBody_columns {s : State} (hrun : windowRuns s = true) (f : Nat → Pixel) (drawn : Bool) {px : Nat}
    (h : px < 160) :
    windowBody (drawnLine s (columns f), drawn) px =
      (drawnLine s (columns (Function.update f px (windowOver s px (f px)))), drawn || isWindowPixel s px) := by
  have hbody : windowBody (drawnLine s (columns f), drawn) px =
      if isWindowPixel s px then (drawPixel px (layerPixel s (windowIndex s px)) (drawnLine s (columns f)), true)
      else (drawnLine s (columns f), drawn) := rfl
  rw [hbody, windowOver, hrun, Bool.true_and]
  cases isWindowPixel s px with
  | true => simp [drawPixel_columns s f h]
  | false => simp

theorem foldl_windowBody {s : State} (hrun : windowRuns s = true) (f : Nat → Pixel) {n : Nat} (h : n ≤ 160) :
    (List.range n).foldl windowBody (drawnLine s (columns f), false) =
      (drawnLine s (columns (sweep (windowOver s) n f)), (List.range n).any (isWindowPixel s)) := by
  induction n with
  | zero => rfl
  | succ n ih =>
    rw [List.range_succ, List.foldl_append, ih (Nat.le_of_succ_le h), List.foldl_cons, List.foldl_nil,
      windowBody_columns hrun _ _ h, sweep_succ, List.any_append, List.any_cons, List.any_nil, Bool.or_false]

theorem renderWindowLoop_drawnLine (s : State) (f : Nat → Pixel) :
    renderWindowLoop (drawnLine s (columns f)) =
      drawnLine { s with winLine := (renderLine s).winLine } (columns (fun px => windowOver s px (f px))) := by
  have hloop : renderWindowLoop (drawnLine s (columns f)) =
      if windowRuns s then
        let acc := (List.range 160).foldl windowBody (drawnLine s (columns f), false)
        if acc.2 then { acc.1 with winLine := acc.1.winLine + 1 } else acc.1
      else drawnLine s (columns f) := rfl
  rw [hloop, renderLine_winLine, windowDrawn]
  cases hrun : windowRuns s with
  | false =>
    have hover (px : Nat) : windowOver s px (f px) = f px := by simp [windowOver, hrun]
    simp [hover]
  | true =>
    rw [foldl_windowBody hrun f le_rfl, columns_sweep (by omega)]
    simp only [if_true, Bool.true_and, Config.lineWidth]
    split <;> rfl

/-! ### The sprite loops -/

/-- A sprite column off the screen is skipped (43_sprites.md R205). -/
theorem spriteBody_of_offscreen {e : SelEntry} {col : Nat} (h : e.x.toNat + col < 8 ∨ 168 ≤ e.x.toNat + col)
    (s : State) : spriteBody e s col = s :=
  if_pos (by omega)

/-- Where a sprite has a column it writes unless one of the two tests of 43_sprites.md R208 and R210 skips it. -/
theorem spriteWrites_iff (s : State) {e : SelEntry} {px : Nat} (hcovers : spriteCovers e px = true) (ci : ColourIndex) :
    spriteWrites s e px ci = true ↔ spriteIndex s e px ≠ 0 ∧ ¬(attrPrio e.attr = true ∧ ci ≠ 0) := by
  rw [spriteWrites, hcovers, Bool.true_and, Bool.and_eq_true, bne_iff_ne, Bool.or_eq_true, beq_iff_eq, not_and_not_right,
    Bool.not_eq_true', ← Bool.not_eq_true, imp_iff_not_or]

/-- A sprite column on the screen, in the terms of the pixel-wise pass: `px = x - 8 + col` (43_sprites.md R205). -/
theorem spriteBody_of_onscreen {e : SelEntry} {col px : Nat} (hcol : col < 8) (hpx : px < 160)
    (h : e.x.toNat + col = px + 8) (s : State) :
    spriteBody e s col =
      if spriteWrites s e px (memRead s.shadow (160 * s.ly.toNat + px)) then
        putPixel px s.ly (colourAt s.params.colorTable (shadeOf (spritePalette s e) (spriteIndex s e px))) s
      else s := by
  have hsx : (e.x.toNat : Int) - 8 + col = px := by omega
  have hspriteCol : (spriteCol e px).toNat = col := by unfold spriteCol; omega
  have hcovers : spriteCovers e px = true := (spriteCovers_iff e px).2 (by omega)
  have hindex : spriteIndex s e px =
      rowPixel s.vram (16 * spriteTile s.lcdc e + 2 * spriteRow s e) (if attrXFlip e.attr then col else 7 - col) := by
    rw [spriteIndex, hspriteCol]
  have hwrites := spriteWrites_iff s hcovers (memRead s.shadow (160 * s.ly.toNat + px))
  rw [spriteBody, hsx, ← hindex, Int.toNat_natCast, if_neg (by omega)]
  by_cases hclear : spriteIndex s e px = 0
  · rw [if_neg fun h => (hwrites.1 h).1 hclear]
    exact if_pos hclear
  · by_cases hbehind : attrPrio e.attr = true ∧ memRead s.shadow (160 * s.ly.toNat + px) ≠ 0
    · rw [if_neg fun h => (hwrites.1 h).2 hbehind]
      exact (if_neg hclear).trans (if_pos hbehind)
    · rw [if_pos (hwrites.2 ⟨hclear, hbehind⟩)]
      exact (if_neg hclear).trans (if_neg hbehind)

/-- Over a drawn line a sprite's column does what the pixel-wise pass does where it lands: the index it tests is the one
the line holds there (43_sprites.md R210). -/
theorem spriteBody_columns (s : State) (e : SelEntry) (f : Nat → Pixel) {col px : Nat} (hcol : col < 8)
    (hpx : px < 160) (h : e.x.toNat + col = px + 8) :
    spriteBody e (drawnLine s (columns f)) col =
      drawnLine s (columns (Function.update f px (spriteOver s px e (f px)))) := by
  have hread : memRead (drawnLine s (columns f)).shadow (160 * (drawnLine s (columns f)).ly.toNat + px) = (f px).ci :=
    memRead_drawnLine_shadow s f hpx
  have hwrites : spriteWrites (drawnLine s (columns f)) e px (f px).ci = spriteWrites s e px (f px).ci := rfl
  rw [spriteBody_of_onscreen hcol hpx h, hread, hwrites, spriteOver]
  split
  · exact putPixel_columns s f hpx _
  · rw [Function.update_eq_self]

theorem spriteOver_of_not_covers {s : State} {e : SelEntry} {px : Nat} (h : ¬ (e.x.toNat ≤ px + 8 ∧ px < e.x.toNat))
    (under : Pixel) : spriteOver s px e under = under := by
  have hcovers : spriteCovers e px = false := by
    rw [← Bool.not_eq_true, spriteCovers_iff]
    omega
  rw [spriteOver, spriteWrites, hcovers]
  rfl

/-- After `k` columns of a sprite the screen is swept up to the column of its next one. -/
theorem foldl_spriteBody (s : State) (e : SelEntry) (f : Nat → Pixel) {k : Nat} (h : k ≤ 8) :
    (List.range k).foldl (spriteBody e) (drawnLine s (columns f)) =
      drawnLine s (columns (sweep (fun px => spriteOver s px e) (e.x.toNat + k - 8) f)) := by
  induction k with
  | zero =>
    refine congrArg _ (columns_congr fun px hpx => ?_)
    unfold sweep
    split
    next hlt => exact (spriteOver_of_not_covers (by omega) _).symm
    next => rfl
  | succ k ih =>
    rw [List.range_succ, List.foldl_append, ih (Nat.le_of_succ_le h), List.foldl_cons, List.foldl_nil]
    by_cases hoff : e.x.toNat + k < 8 ∨ 168 ≤ e.x.toNat + k
    · rw [spriteBody_of_offscreen hoff]
      refine congrArg _ (columns_congr fun px hpx => ?_)
      have hiff : px < e.x.toNat + (k + 1) - 8 ↔ px < e.x.toNat + k - 8 := by omega
      simp only [sweep, hiff]
    · have hnext : e.x.toNat + (k + 1) - 8 = e.x.toNat + k - 8 + 1 := by omega
      have hscreen : e.x.toNat + k - 8 < 160 := by omega
      have hcol : e.x.toNat + k = e.x.toNat + k - 8 + 8 := by omega
      rw [hnext, sweep_succ, spriteBody_columns s e _ h hscreen hcol]

theorem foldl_spriteBody_line (s : State) (e : SelEntry) (f : Nat → Pixel) :
    (List.range 8).foldl (spriteBody e) (drawnLine s (columns f)) =
      drawnLine s (columns (fun px => spriteOver s px e (f px))) := by
  rw [foldl_spriteBody s e f le_rfl, columns_sweep fun px hpx _ => spriteOver_of_not_covers (by omega) _]

theorem foldr_spriteBody_line (s : State) (sel : List SelEntry) (f : Nat → Pixel) :
    sel.foldr (fun e t => (List.range 8).foldl (spriteBody e) t) (drawnLine s (columns f)) =
      drawnLine s (columns (fun px => sel.foldr (spriteOver s px) (f px))) := by
  induction sel with
  | nil => rfl
  | cons e sel ih =>
    rw [List.foldr_cons, ih, foldl_spriteBody_line]
    rfl

theorem renderSpritesLoop_drawnLine (s : State) (f : Nat → Pixel) :
    renderSpritesLoop (drawnLine s (columns f)) = drawnLine s (columns (fun px => spritesOver s px (f px))) := by
  have hloop : renderSpritesLoop (drawnLine s (columns f)) =
      if spritesRun s then
        s.sel.reverse.foldl (fun t e => (List.range 8).foldl (spriteBody e) t) (drawnLine s (columns f))
      else drawnLine s (columns f) := rfl
  rw [hloop, List.foldl_reverse, foldr_spriteBody_line]
  unfold spritesOver
  split <;> rfl

/-- Settles O54: each loop turns a drawn line into the line its pass leaves. -/
theorem renderEqualsTheSpecsLoops : Obligations.RenderEqualsTheSpecsLoops := by
  intro s
  rw [renderLineLoop, renderBackgroundLoop_eq, renderWindowLoop_drawnLine, renderSpritesLoop_drawnLine,
    renderLine_eq_drawnLine]
  rfl

end Sys2Proof.Machine
end

section
/-! Which inputs a line render reads: the sprite inputs reach WORK alone (43_sprites.md R211), and OAM reaches nothing,
because the sprite pass reads the entries the scan copied (41_oam_scan.md R156). -/

namespace Sys2Proof.Machine

/-- A column's shadow index is the one the background and window passes leave. -/
theorem linePixel_ci (s : State) (px : Nat) : (linePixel s px).ci = (windowOver s px (bgPixel s px)).ci :=
  spritesOver_ci s px _

/-- SHADOW after a render is decided by the background and window passes. -/
theorem renderLine_shadow_eq_layers (s : State) :
    (renderLine s).shadow =
      memWriteBlock s.shadow (shadowLineBase s.ly)
        ((List.range Config.lineWidth).map fun px => (windowOver s px (bgPixel s px)).ci) := by
  have hline : (renderedLine s).map Pixel.ci =
      (List.range Config.lineWidth).map fun px => (windowOver s px (bgPixel s px)).ci := by
    rw [renderedLine, List.map_map]
    exact List.map_congr_left fun px _ => linePixel_ci s px
  rw [renderLine_shadow, hline]

/-- A render neither reads nor changes OAM. -/
theorem renderLine_with_oam (s : State) (oam : Memory 8) :
    renderLine { s with oam := oam } = { renderLine s with oam := oam } := rfl

/-- Settles O53: SHADOW is decided by the background and window passes (`renderLine_shadow_eq_layers`), and neither these
nor `windowDrawn` name a sprite input; no pass names OAM (`renderLine_with_oam`). -/
theorem spritePassLeavesShadow : Obligations.SpritePassLeavesShadow := by
  intro s sel p q layer oam
  refine ⟨?_, rfl, ?_⟩
  · rw [renderLine_shadow_eq_layers, renderLine_shadow_eq_layers]
    rfl
  · rw [renderLine_with_oam]

end Sys2Proof.Machine
end

section
/-! The access commands (44_access.md R225 to R236): the element each one reads or writes, and what all of them keep. -/

namespace Sys2Proof.Machine

/-! ### Registers (44_access.md R225 to R229) -/

/-- Settles O15: an address with a register's low byte selects that register. -/
theorem regReadRespondsStoredByte : Obligations.RegReadRespondsStoredByte :=
  fun s _ _ ha => exec_regRd_of_regOfAddr (regOfAddr_eq_some ha) s

/-- A host write stores the byte whole in every register but STAT and LY. -/
theorem readReg_hostWriteReg_same (s : State) (v : Byte) {r : Reg} (hstat : r ≠ .stat) (hly : r ≠ .ly) :
    readReg (hostWriteReg s v r) r = v := by
  cases r with
  | stat => exact absurd rfl hstat
  | ly => exact absurd rfl hly
  | lcdc | scy | scx | lyc | bgp | obp0 | obp1 | wy | wx => rfl

/-- A host write leaves everything outside the register bank: with the bank put back, the state is the one before. -/
theorem hostWriteReg_bank_restored (s : State) (v : Byte) (r : Reg) :
    { hostWriteReg s v r with
      lcdc := s.lcdc, stat := s.stat, scy := s.scy, scx := s.scx, ly := s.ly, lyc := s.lyc, bgp := s.bgp,
      obp0 := s.obp0, obp1 := s.obp1, wy := s.wy, wx := s.wx } = s := by
  cases r <;> rfl

/-- Settles O16: the host write of the selected register, from the state with its ports cleared. -/
theorem regWriteStoresWholeByte : Obligations.RegWriteStoresWholeByte := by
  intro s r a v ha hstat hly
  refine ⟨_, exec_regWr_of_regOfAddr (regOfAddr_eq_some ha) v s, readReg_hostWriteReg_same _ v hstat hly, ?_,
    hostWriteReg_response _ _ _, hostWriteReg_requests _ _ _, ?_⟩
  · intro q hq
    rw [readReg_hostWriteReg_ne _ v hq, readReg_clearOutputs]
  · exact congrArg (fun t : State => { t with response := s.response, requests := s.requests })
      (hostWriteReg_bank_restored (clearOutputs s) v r)

/-- Settles O18: the address selects LY, which a host write leaves. -/
theorem regWriteLyChangesNothing : Obligations.RegWriteLyChangesNothing :=
  fun s _ v ha => exec_regWr_of_regOfAddr (r := .ly) (regOfAddr_eq_some ha) v s

/-! ### VRAM, OAM and the published frame (44_access.md R230 to R233, R235) -/

/-- Settles O19: masking ADDR is ADDR mod 8192. -/
theorem vramReadRespondsMaskedByte : Obligations.VramReadRespondsMaskedByte := by
  intro s a
  rw [← vramIndex_eq_mod]
  rfl

/-- Settles O20: one memory write at the masked address, `memRead_memWrite`. -/
theorem vramWriteChangesOneByte : Obligations.VramWriteChangesOneByte := by
  intro s a v
  refine ⟨_, rfl, fun k => ?_, rfl, rfl, rfl⟩
  rw [← vramIndex_eq_mod]
  exact memRead_memWrite s.vram (vramIndex a) v k

theorem exec_oamWr_of_lt {a : BitVec 16} (h : oamOffset a < Config.oamSize) (v : Byte) (s : State) :
    exec (.oamWr a v) s = .next { clearOutputs s with oam := memWrite s.oam (oamOffset a) v } :=
  if_neg (Nat.not_le.2 h)

/-- Settles O21: the offset is ADDR mod 256, below 160 by hypothesis. -/
theorem oamReadRespondsByte : Obligations.OamReadRespondsByte := by
  intro s a ha
  rw [← oamOffset_eq_mod] at ha ⊢
  exact exec_oamRd_of_lt ha s

/-- Settles O22: inside the table OAM_WR is one memory write at the offset, `memRead_memWrite`. -/
theorem oamWriteChangesOneByte : Obligations.OamWriteChangesOneByte := by
  intro s a v ha
  rw [← oamOffset_eq_mod] at ha ⊢
  exact ⟨_, exec_oamWr_of_lt ha v s, memRead_memWrite s.oam (oamOffset a) v, rfl, rfl, rfl⟩

/-- Settles O24: a channel of a pixel inside 160 × 144 stands below 92160. -/
theorem frameReadRespondsDoneByte : Obligations.FrameReadRespondsDoneByte := by
  intro s k line px c hline hpx hc hk
  have hlt : k.toNat < Config.frameSize := by rw [hk]; simp only [Config.frameSize]; omega
  rw [← hk]
  exact exec_frameRd_of_lt hlt s

/-! ### DMA (44_access.md R234) -/

/-- The bus answers what the host has fixed for an address, at every read of it (log 9). -/
theorem busAnswer_of_find? {s : State} {a : Nat} {c : Nat × Byte}
    (h : s.params.bus.find? (fun c => c.1 == a) = some c) (i : Nat) : busAnswer s i a = c.2 := by
  simp [busAnswer, h]

theorem memRead_dmaBytes_of_lt (m : Memory 8) (p : Byte) (s : State) {i : Nat} (h : i < 160) :
    memRead (memWriteBlock m 0 (dmaBytes p s)) i = busAnswer s i (dmaSource p i) := by
  rw [memRead_memWriteBlock, if_pos (by simpa using h)]
  simp [dmaBytes, List.getD_eq_getElem?_getD, h]

theorem memRead_dmaBytes_of_ge (m : Memory 8) (p : Byte) (s : State) {k : Nat} (h : 160 ≤ k) :
    memRead (memWriteBlock m 0 (dmaBytes p s)) k = memRead m k := by
  rw [memRead_memWriteBlock, if_neg (by simpa using h)]

/-- Settles O23: DMA is one block write of the bus's answers, and a fixed answer is the bus's answer. -/
theorem dmaFillsObjectTable : Obligations.DmaFillsObjectTable := by
  intro s p
  refine ⟨_, rfl, fun i hi => memRead_dmaBytes_of_lt s.oam p s hi, fun i v hi hfixed => ?_,
    fun k hk => memRead_dmaBytes_of_ge s.oam p s hk, rfl, rfl, rfl, rfl⟩
  exact (memRead_dmaBytes_of_lt s.oam p s hi).trans (busAnswer_of_find? hfixed i)

/-! ### What every access command keeps (44_access.md R236) -/

/-- Settles O26: what an access command answers differs from the state with its ports cleared in a register other than
LY, in VRAM, in OAM and the bus counter, or in the response. -/
theorem accessCommandsKeepTheClock : Obligations.AccessCommandsKeepTheClock := by
  intro i s t hstep hhard hsoft hboot h
  cases answers_of_exec h with
  | step => exact absurd rfl (hstep _)
  | resetHard => exact absurd rfl hhard
  | resetSoft => exact absurd rfl hsoft
  | postBoot => exact absurd rfl hboot
  | regWr => simp
  | regRd | vramRd | vramWr | oamRd | oamWr | dma | frameRd =>
    exact ⟨rfl, rfl, rfl, rfl, rfl, rfl, rfl, rfl, rfl, rfl, rfl⟩

end Sys2Proof.Machine
end

section
/-! The two resets (45_control.md R260 to R263): the element each register and memory reads after RESET.HARD, and the
four counters RESET.SOFT clears. -/

namespace Sys2Proof.Machine

/-- Settles O13: SoftReset's record, with the ports cleared as at the start of every command. -/
theorem softResetClearsFourCounters : Obligations.SoftResetClearsFourCounters :=
  fun _ => rfl

/-! ### Reads after RESET.HARD (45_control.md R260, 44_access.md R235) -/

theorem readReg_hardReset (s : State) (r : Reg) : readReg (hardReset s) r = 0 := by
  cases r <;> rfl

theorem exists_regOfAddr_of_wellFormed {a : BitVec 16} (h : (Instr.regRd a).wellFormed = true) :
    ∃ r, regOfAddr a = some r :=
  Option.isSome_iff_exists.1 ((isSome_regOfAddr a).trans h)

/-- After RESET.HARD a read inside its contract responds 0: every register holds 0, and VRAM, OAM and DONE list no
address, so every byte of them reads as 0 (45_control.md R261). -/
theorem exec_read_hardReset {i : Instr} (s : State) (hwf : i.wellFormed = true)
    (hread : (∃ a, i = .regRd a) ∨ (∃ a, i = .vramRd a) ∨ (∃ a, i = .oamRd a) ∨ (∃ k, i = .frameRd k)) :
    exec i (hardReset s) = .next (respond 0 (clearOutputs (hardReset s))) := by
  obtain ⟨a, rfl⟩ | ⟨a, rfl⟩ | ⟨a, rfl⟩ | ⟨k, rfl⟩ := hread
  · obtain ⟨r, hr⟩ := exists_regOfAddr_of_wellFormed hwf
    rw [exec_regRd_of_regOfAddr hr, readReg_hardReset]
  · rfl
  · exact exec_oamRd_of_lt (of_decide_eq_true hwf) _
  · exact exec_frameRd_of_lt (of_decide_eq_true hwf) _

/-- Settles O12: RESET.HARD leaves its ports empty, so clearing them for the read changes nothing
(`exec_read_hardReset`). -/
theorem everythingReadsZeroAfterHardReset : Obligations.EverythingReadsZeroAfterHardReset :=
  fun s => ⟨hardReset (clearOutputs s), rfl, fun _ hwf hread => exec_read_hardReset (clearOutputs s) hwf hread⟩

end Sys2Proof.Machine
end

section
/-! The display switched off and on again (60_exceptions.md R298), and the STAT blocking quirk (60_exceptions.md R285). -/

namespace Sys2Proof.Machine

/-! ### The disabled STEP and the re-enable soft reset (40_step.md R112, R113) -/

/-- HBLANK has mode code 0, so forcing its bits only clears them. -/
theorem setModeBits_hblank (stat : Byte) : setModeBits stat .hblank = stat &&& 0xFC :=
  BitVec.or_zero

theorem wake_of_wasDisabled {s : State} (h : s.wasDisabled = true) :
    wake s = { softReset s with wasDisabled := false } :=
  if_pos h

theorem startCycles_wake (s : State) : startCycles (wake s) = startCycles s := by
  cases h : s.wasDisabled with
  | false => rw [wake_of_not_wasDisabled h]
  | true => rw [wake_of_wasDisabled h]; simp [startCycles, h]

theorem wake_clearOutputs (s : State) : wake (clearOutputs s) = clearOutputs (wake s) := by
  cases h : s.wasDisabled with
  | false => rw [wake_of_not_wasDisabled h, wake_of_not_wasDisabled (s := clearOutputs s) h]
  | true => rw [wake_of_wasDisabled h, wake_of_wasDisabled (s := clearOutputs s) h]; rfl

/-- The soft reset is owed once: after it the table starts from the same state. -/
theorem tableStart_wake (n : BitVec 28) (s : State) : tableStart n (wake s) = tableStart n s := by
  have hidem : wake (wake s) = wake s := wake_of_not_wasDisabled (wake_wasDisabled s)
  simp only [tableStart, accumulate, startCycles_clearOutputs, startCycles_wake, wake_clearOutputs, hidem]

/-- An enabled STEP does what it does from the state the re-enable soft reset leaves: the overflow check, the gate and the
table all see the same. -/
theorem execStep_wake {n : BitVec 28} {s : State} (hl : lcdEn s.lcdc = true) :
    execStep n (wake s) = execStep n s := by
  have hl' : lcdEn (wake s).lcdc = true := by rwa [wake_lcdc]
  by_cases hc : startCycles s + n.toNat < Config.cycleLimit
  · rw [execStep_enabled hl hc, execStep_enabled hl' (by rwa [startCycles_wake]), enabledStep_eq, enabledStep_eq,
      wake_stat, wake_mode, tableStart_wake]
  · rw [Nat.not_lt] at hc
    rw [execStep_overflow hl hc, execStep_overflow hl' (by rwa [startCycles_wake])]

/-- Settles O30: the disabled STEP by `execStep_disabled`; the re-enable STEP is the STEP from `wake s` (`execStep_wake`),
which is the soft-reset state. -/
theorem displayOffHoldsAndWakes : Obligations.DisplayOffHoldsAndWakes := by
  refine ⟨fun s n hoff => ?_, fun s n hon hlatch => ?_⟩
  · rw [← setModeBits_hblank]
    exact execStep_disabled hoff
  · have hwake : execStep n (wake s) = execStep n s := execStep_wake hon
    rw [wake_of_wasDisabled hlatch] at hwake
    exact hwake.symm

/-! ### Where STAT and VBLANK can stand in the requests of a STEP (60_exceptions.md R285, 90_conflicts.md C2) -/

theorem statRequest_of_gate_closed {s : State} (hgate : gateOpen s = false) (enable : Bool) :
    statRequest s enable = [] := by
  simp [statRequest, hgate]

theorem vblank_notMem_statRequest (s : State) (enable : Bool) : Irq.vblank ∉ statRequest s enable := by
  unfold statRequest; split <;> simp

theorem vblank_mem_transitionRequests (s : State) (m' : Mode) :
    Irq.vblank ∈ transitionRequests s m' ↔ s.mode = .hblank ∧ m' = .vblank := by
  have hrest : Irq.vblank ∉ if m' = s.mode then [] else statRequest s (entryEnable s.stat m') := by
    split
    · exact List.not_mem_nil
    · exact vblank_notMem_statRequest s _
  rw [transitionRequests, List.mem_append, or_iff_left hrest, List.mem_ite_nil_right, List.mem_singleton,
    and_iff_left rfl]

theorem stat_notMem_transitionRequests {s : State} (hgate : gateOpen s = false) (m' : Mode) :
    Irq.stat ∉ transitionRequests s m' := by
  rw [transitionRequests, statRequest_of_gate_closed hgate, ite_self, List.append_nil]
  split <;> simp

/-- Settles O42: in the list of `execStep_enabled_requests` every STAT is a `statRequest`, empty under a closed gate, and
VBLANK stands only where the transition puts it. -/
theorem statGateBlocksStatRequests : Obligations.StatGateBlocksStatRequests := by
  intro s t n hl h
  have hlist : t.requests = transitionRequests s t.mode ++ lycRequest s t.ly := execStep_enabled_requests hl h
  rw [hlist]
  refine ⟨fun hgate => ?_, ?_⟩
  · rw [lycRequest, statRequest_of_gate_closed hgate, List.append_nil]
    exact stat_notMem_transitionRequests hgate t.mode
  · rw [List.mem_append, lycRequest, or_iff_left (vblank_notMem_statRequest s _)]
    exact vblank_mem_transitionRequests s t.mode

end Sys2Proof.Machine
end

section
/-! The step-size discipline (70_reset_and_hazards.md R316): steps of at most the shortest duration owe no transition. -/

namespace Sys2Proof.Machine

/-- OAM search is the shortest mode (70_reset_and_hazards.md R326). -/
theorem eighty_le_duration (m : Mode) : 80 ≤ duration m := by
  cases m <;> decide

/-- Settles O46: of the two cases of `atMostOneTransitionPerStep`, the first is below the duration by its own condition;
in the second the cycles that remain are fewer than the step added, so fewer than any duration. -/
theorem disciplinedStepsOweNoTransition : Obligations.DisciplinedStepsOweNoTransition := by
  intro s t n hs hbelow hn h
  have hstart : (if s.wasDisabled then 0 else s.cycles.toNat) = s.cycles.toNat := startCycles_of_not_wasDisabled hs.2
  obtain ⟨hlt, hmode, hcycles⟩ | ⟨-, hpaid, -⟩ := atMostOneTransitionPerStep s t n hs.1 h
  · rwa [BelowDuration, hmode, hcycles]
  · rw [hstart] at hpaid
    have hremain : t.cycles.toNat < n.toNat := by
      unfold BelowDuration at hbelow
      omega
    exact hremain.trans_le (hn.trans (eighty_le_duration t.mode))

end Sys2Proof.Machine
end

section
/-! Decoding and encoding undo each other, and which words no row of the opcode map matches (30_encoding.md R96 to R103). -/

namespace Sys2Proof

/-! ### The rows of the opcode map -/

/-- Two rows that one word matches agree on the bits both masks keep; only a row and itself do (30_encoding.md R96). -/
theorem mnemonic_eq_of_rowMatches {w : Word} {p q : Row} (hp : p ∈ opcodeMap) (hq : q ∈ opcodeMap)
    (hwp : rowMatches w p = true) (hwq : rowMatches w q = true) : p.mnemonic = q.mnemonic := by
  have hcommon : p.pattern &&& q.mask = q.pattern &&& p.mask := by
    rw [← beq_iff_eq.1 hwp, ← beq_iff_eq.1 hwq, BitVec.and_assoc, BitVec.and_assoc, BitVec.and_comm p.mask]
  have htable : ∀ p ∈ opcodeMap, ∀ q ∈ opcodeMap,
      p.pattern &&& q.mask = q.pattern &&& p.mask → p.mnemonic = q.mnemonic := by decide
  exact htable p hp q hq hcommon

/-- Settles O4: rows of two mnemonics differ in a bit that both masks keep (`mnemonic_eq_of_rowMatches`). -/
theorem opcodeRowsDisjoint : Obligations.OpcodeRowsDisjoint :=
  fun _ _ hp _ hq => mnemonic_eq_of_rowMatches hp hq

/-- The mnemonics of the map are distinct, so the row that matches a word is one. -/
theorem row_eq_of_rowMatches {w : Word} {p q : Row} (hp : p ∈ opcodeMap) (hq : q ∈ opcodeMap)
    (hwp : rowMatches w p = true) (hwq : rowMatches w q = true) : p = q :=
  List.inj_on_of_nodup_map (f := Row.mnemonic) (by decide) hp hq (mnemonic_eq_of_rowMatches hp hq hwp hwq)

theorem decode_of_rowMatches {w : Word} {r : Row} (hr : r ∈ opcodeMap) (hw : rowMatches w r = true) :
    decode w = .command (r.build w) := by
  obtain ⟨q, hq⟩ := Option.isSome_iff_exists.1 (List.find?_isSome.2 ⟨r, hr, hw⟩)
  have hqr : q = r := row_eq_of_rowMatches (List.mem_of_find?_eq_some hq) hr (List.find?_some hq) hw
  rw [decode, hq, hqr]

theorem exists_row_of_decode {w : Word} {i : Instr} (h : decode w = .command i) :
    ∃ r ∈ opcodeMap, rowMatches w r = true ∧ r.build w = i := by
  unfold decode at h
  split at h
  next r hr => exact ⟨r, List.mem_of_find?_eq_some hr, List.find?_some hr, by simpa using h⟩
  next => split at h <;> cases h

/-! ### Decode after encode, encode after decode -/

theorem encode_matches_row (i : Instr) : Laws.MatchesRow.Statement i := by
  cases i with
  | step n => exact Laws.MatchesRow.step n
  | resetHard => exact Laws.MatchesRow.resetHard
  | resetSoft => exact Laws.MatchesRow.resetSoft
  | postBoot => exact Laws.MatchesRow.postBoot
  | regRd addr => exact Laws.MatchesRow.regRd addr
  | regWr addr data => exact Laws.MatchesRow.regWr addr data
  | vramRd addr => exact Laws.MatchesRow.vramRd addr
  | vramWr addr data => exact Laws.MatchesRow.vramWr addr data
  | oamRd addr => exact Laws.MatchesRow.oamRd addr
  | oamWr addr data => exact Laws.MatchesRow.oamWr addr data
  | dma page => exact Laws.MatchesRow.dma page
  | frameRd idx => exact Laws.MatchesRow.frameRd idx

/-- Settles O2: the word of a command matches a row that builds the command back, and no other row. -/
theorem decodeOfEncode : Obligations.DecodeOfEncode := by
  intro i
  obtain ⟨r, hr, hmatch, hbuild⟩ := encode_matches_row i
  rw [decode_of_rowMatches hr hmatch, hbuild]

/-- A format M word is its fields side by side (30_encoding.md R93). -/
theorem append_formatM {w : Word} {op : BitVec 4} {data : Byte}
    (h : w.extractLsb' 24 8 = op ++ 0#4 ∧ w.extractLsb' 0 8 = data) : op ++ 0#4 ++ fieldAddr w ++ data = w := by
  obtain ⟨hop, rfl⟩ := h
  have htop : (op ++ 0#4) ++ fieldAddr w = w.extractLsb' 8 24 := by
    rw [← hop]
    exact BitVec.extractLsb'_append_extractLsb'_eq_extractLsb' rfl
  rw [htop]
  exact BitVec.extractLsb'_append_extractLsb'

/-- A word is its two fields side by side. -/
theorem append_lowField {k m : Nat} {w : BitVec (k + m)} {hi : BitVec k} (h : w.extractLsb' m k = hi) :
    hi ++ w.extractLsb' 0 m = w :=
  h ▸ BitVec.extractLsb'_append_extractLsb'

/-- A row fixes the fields its command does not carry, so the word built back is the one matched (R91 to R96). -/
theorem encode_build_of_rowMatches {w : Word} {r : Row} (hr : r ∈ opcodeMap) (hw : rowMatches w r = true) :
    encode (r.build w) = w := by
  simp only [opcodeMap, List.mem_cons, List.not_mem_nil, or_false] at hr
  rw [rowMatches, beq_iff_eq] at hw
  rcases hr with rfl | rfl | rfl | rfl | rfl | rfl | rfl | rfl | rfl | rfl | rfl | rfl
  · exact append_lowField (k := 4) (m := 28) ((and_top4_eq_iff rfl).1 hw)
  · exact (and_allOnes_eq_iff.1 hw).symm
  · exact (and_allOnes_eq_iff.1 hw).symm
  · exact (and_allOnes_eq_iff.1 hw).symm
  · exact append_formatM ((and_read_mask_eq_iff rfl).1 hw)
  · exact append_formatM ⟨(and_top8_eq_iff rfl).1 hw, rfl⟩
  · exact append_formatM ((and_read_mask_eq_iff rfl).1 hw)
  · exact append_formatM ⟨(and_top8_eq_iff rfl).1 hw, rfl⟩
  · exact append_formatM ((and_read_mask_eq_iff rfl).1 hw)
  · exact append_formatM ⟨(and_top8_eq_iff rfl).1 hw, rfl⟩
  · exact append_lowField (k := 24) (m := 8) ((and_top24_eq_iff rfl).1 hw)
  · exact append_lowField (k := 15) (m := 17) ((and_top15_eq_iff rfl).1 hw)

/-- Settles O3: the command comes from a row the word matches. -/
theorem encodeOfDecode : Obligations.EncodeOfDecode := by
  intro w i h
  obtain ⟨r, hr, hmatch, rfl⟩ := exists_row_of_decode h
  exact encode_build_of_rowMatches hr hmatch

/-- Settles O1: each word is the encoding of its command. -/
theorem decodesSpecWords : Obligations.DecodesSpecWords :=
  ⟨decodeOfEncode (.step 456), decodeOfEncode .resetHard, decodeOfEncode .resetSoft, decodeOfEncode .postBoot,
    decodeOfEncode (.regRd 0xFF41), decodeOfEncode (.regWr 0xFF40 0x91), decodeOfEncode (.vramRd 0x00FF),
    decodeOfEncode (.vramWr 0x8010 0xF0), decodeOfEncode (.oamRd 0xFE9F), decodeOfEncode (.oamWr 0xFE9F 0x33),
    decodeOfEncode (.dma 0x12), decodeOfEncode (.frameRd 92159)⟩

/-! ### The words refused (30_encoding.md R98, R99) -/

theorem extractLsb'_top_eq_iff {w p : Word} {lo k : Nat} (hk : lo + k = 32) :
    w.extractLsb' lo k = p.extractLsb' lo k ↔ w.toNat / 2 ^ lo = p.toNat / 2 ^ lo := by
  have hlt (v : Word) : v.toNat / 2 ^ lo < 2 ^ k := by
    rw [Nat.div_lt_iff_lt_mul (Nat.two_pow_pos lo), ← Nat.pow_add, Nat.add_comm, hk]
    exact v.isLt
  rw [← BitVec.toNat_inj, BitVec.extractLsb'_toNat, BitVec.extractLsb'_toNat, Nat.shiftRight_eq_div_pow,
    Nat.shiftRight_eq_div_pow, Nat.mod_eq_of_lt (hlt w), Nat.mod_eq_of_lt (hlt p)]

/-- Which words a row matches, on plain numbers: OP is the row's and the reserved fields of its format are 0. -/
theorem exists_rowMatches_iff (w : Word) :
    (∃ r ∈ opcodeMap, rowMatches w r = true) ↔
      w.toNat / 2 ^ 28 = 1 ∨
      (w.toNat / 2 ^ 28 = 2 ∧ w.toNat / 2 % 2 ^ 27 = 0) ∨
      (w.toNat / 2 ^ 28 = 3 ∧ w.toNat % 2 ^ 28 = 0) ∨
      (w.toNat / 2 ^ 28 = 4 ∧ w.toNat / 2 ^ 24 % 16 = 0 ∧ w.toNat % 256 = 0) ∨
      (w.toNat / 2 ^ 28 = 5 ∧ w.toNat / 2 ^ 24 % 16 = 0) ∨
      (w.toNat / 2 ^ 28 = 6 ∧ w.toNat / 2 ^ 24 % 16 = 0 ∧ w.toNat % 256 = 0) ∨
      (w.toNat / 2 ^ 28 = 7 ∧ w.toNat / 2 ^ 24 % 16 = 0) ∨
      (w.toNat / 2 ^ 28 = 8 ∧ w.toNat / 2 ^ 24 % 16 = 0 ∧ w.toNat % 256 = 0) ∨
      (w.toNat / 2 ^ 28 = 9 ∧ w.toNat / 2 ^ 24 % 16 = 0) ∨
      (w.toNat / 2 ^ 28 = 10 ∧ w.toNat / 2 ^ 8 % 2 ^ 20 = 0) ∨
      (w.toNat / 2 ^ 28 = 11 ∧ w.toNat / 2 ^ 17 % 2 ^ 11 = 0) := by
  have hreset : w = 0x20000001 ∨ w = 0x20000000 ↔ w.toNat / 2 ^ 28 = 2 ∧ w.toNat / 2 % 2 ^ 27 = 0 := by
    bv_omega
  have hpostBoot : w = 0x30000000 ↔ w.toNat / 2 ^ 28 = 3 ∧ w.toNat % 2 ^ 28 = 0 := by
    bv_omega
  have hwrite (k : Nat) : w.toNat / 2 ^ 24 = 16 * k ↔ w.toNat / 2 ^ 28 = k ∧ w.toNat / 2 ^ 24 % 16 = 0 := by omega
  have hdma : w.toNat / 2 ^ 8 = 0xA00000 ↔ w.toNat / 2 ^ 28 = 10 ∧ w.toNat / 2 ^ 8 % 2 ^ 20 = 0 := by omega
  have hframe : w.toNat / 2 ^ 17 = 0x5800 ↔ w.toNat / 2 ^ 28 = 11 ∧ w.toNat / 2 ^ 17 % 2 ^ 11 = 0 := by omega
  have hdata : w.extractLsb' 0 8 = 0 ↔ w.toNat % 256 = 0 := by
    rw [← BitVec.toNat_inj, BitVec.extractLsb'_toNat]; rfl
  have hread (k : Nat) : w.toNat / 2 ^ 24 = 16 * k ∧ w.extractLsb' 0 8 = 0 ↔
      w.toNat / 2 ^ 28 = k ∧ w.toNat / 2 ^ 24 % 16 = 0 ∧ w.toNat % 256 = 0 := by
    rw [hwrite, hdata, and_assoc]
  simp (disch := decide) only [opcodeMap, List.exists_mem_cons_iff, List.not_mem_nil, false_and, exists_false, or_false,
    rowMatches, beq_iff_eq, and_top4_eq_iff, and_top8_eq_iff, and_read_mask_eq_iff, and_allOnes_eq_iff,
    and_top24_eq_iff, and_top15_eq_iff, extractLsb'_top_eq_iff]
  exact or_congr .rfl (or_assoc.symm.trans (or_congr hreset (or_congr hpostBoot (or_congr (hread 4)
    (or_congr (hwrite 5) (or_congr (hread 6) (or_congr (hwrite 7) (or_congr (hread 8) (or_congr (hwrite 9)
    (or_congr hdma hframe))))))))))

theorem opAssigned_iff (w : Word) : opAssigned w = true ↔ 1 ≤ w.toNat / 2 ^ 28 ∧ w.toNat / 2 ^ 28 ≤ 11 := by
  have hop : (fieldOp w).toNat = w.toNat / 2 ^ 28 := by
    rw [fieldOp, BitVec.extractLsb'_toNat, Nat.shiftRight_eq_div_pow]
    omega
  rw [opAssigned, hop, Bool.and_eq_true, decide_eq_true_eq, decide_eq_true_eq]

/-- Decoding refuses where no row matches, under the name its OP decides (30_encoding.md R98, R99). -/
theorem decode_eq_refuse_iff (w : Word) (e : DecodeError) :
    decode w = .refuse e ↔
      (¬∃ r ∈ opcodeMap, rowMatches w r = true) ∧ (e = .reservedField ↔ opAssigned w = true) := by
  by_cases hrow : ∃ r ∈ opcodeMap, rowMatches w r = true
  · obtain ⟨r, hr, hmatch⟩ := hrow
    rw [decode_of_rowMatches hr hmatch]
    exact ⟨nofun, fun h => absurd ⟨r, hr, hmatch⟩ h.1⟩
  · have hnone : opcodeMap.find? (rowMatches w) = none := List.find?_eq_none.2 fun r hr hmatch => hrow ⟨r, hr, hmatch⟩
    rw [decode, hnone, and_iff_right hrow]
    cases e <;> cases opAssigned w <;> simp

theorem decode_eq_reservedOpcode_iff (w : Word) :
    decode w = .refuse .reservedOpcode ↔ w.toNat / 2 ^ 28 = 0 ∨ 12 ≤ w.toNat / 2 ^ 28 := by
  rw [decode_eq_refuse_iff, exists_rowMatches_iff, opAssigned_iff]
  have hop : w.toNat / 2 ^ 28 < 16 := by omega
  interval_cases w.toNat / 2 ^ 28 <;> simp

theorem decode_eq_reservedField_iff (w : Word) :
    decode w = .refuse .reservedField ↔
      (w.toNat / 2 ^ 28 = 2 ∧ w.toNat / 2 % 2 ^ 27 ≠ 0) ∨
      (w.toNat / 2 ^ 28 = 3 ∧ w.toNat % 2 ^ 28 ≠ 0) ∨
      ((w.toNat / 2 ^ 28 = 4 ∨ w.toNat / 2 ^ 28 = 6 ∨ w.toNat / 2 ^ 28 = 8) ∧
        (w.toNat / 2 ^ 24 % 16 ≠ 0 ∨ w.toNat % 256 ≠ 0)) ∨
      ((w.toNat / 2 ^ 28 = 5 ∨ w.toNat / 2 ^ 28 = 7 ∨ w.toNat / 2 ^ 28 = 9) ∧ w.toNat / 2 ^ 24 % 16 ≠ 0) ∨
      (w.toNat / 2 ^ 28 = 10 ∧ w.toNat / 2 ^ 8 % 2 ^ 20 ≠ 0) ∨
      (w.toNat / 2 ^ 28 = 11 ∧ w.toNat / 2 ^ 17 % 2 ^ 11 ≠ 0) := by
  rw [decode_eq_refuse_iff, exists_rowMatches_iff, opAssigned_iff]
  have hop : w.toNat / 2 ^ 28 < 16 := by omega
  interval_cases w.toNat / 2 ^ 28 <;> simp [imp_iff_not_or]

theorem step_of_decode_refuse {s : Machine.State} {w : Word} {rest : List Word} {e : DecodeError}
    (hs : s.commands = w :: rest) (h : decode w = .refuse e) : Machine.step s = .refused (Machine.refusalOf e) := by
  rw [Machine.step, hs]
  simp only [h]

/-- Settles O5: a word is refused where no row matches (`decode_eq_refuse_iff`), and which words those are is settled for
each OP by itself. -/
theorem reservedWordsRefusedByName : Obligations.ReservedWordsRefusedByName :=
  fun w => ⟨decode_eq_reservedOpcode_iff w, decode_eq_reservedField_iff w, fun _ _ hs =>
    ⟨step_of_decode_refuse hs, step_of_decode_refuse hs⟩⟩

end Sys2Proof
end

section
/-! The words the assembler forms stand for (30_encoding.md R104). -/

namespace Sys2Proof.Machine

theorem toNat_append_eq_add {k m : Nat} (hi : BitVec k) (lo : BitVec m) :
    (hi ++ lo).toNat = hi.toNat * 2 ^ m + lo.toNat := by
  rw [BitVec.toNat_append, ← Nat.shiftLeft_add_eq_or_of_lt lo.isLt, Nat.shiftLeft_eq]

/-- A field added to a word whose bits there are 0 stands beside the rest of it. -/
theorem append_zero_add_setWidth {k m : Nat} (hi : BitVec k) (lo : BitVec m) :
    (hi ++ 0#m) + lo.setWidth (k + m) = hi ++ lo := by
  have hlow : lo.setWidth (k + m) = 0#k ++ lo := by
    apply BitVec.eq_of_toNat_eq
    rw [toNat_append_eq_add, BitVec.toNat_setWidth_of_le (Nat.le_add_left m k)]
    simp
  rw [hlow, BitVec.append_zero_add_zero_append]

/-- The sum of the OP and ADDR of a format M word (30_encoding.md R93). -/
theorem formatM_add_addr (op : BitVec 4) (addr : BitVec 16) :
    (op ++ 0#28 : Word) + (addr.setWidth 32 <<< 8) = op ++ 0#4 ++ addr ++ 0#8 := by
  have haddr : addr.setWidth 32 <<< 8 = 0#4 ++ 0#4 ++ addr ++ 0#8 := by
    apply BitVec.eq_of_toNat_eq
    simp only [toNat_append_eq_add, BitVec.toNat_shiftLeft, BitVec.toNat_setWidth, BitVec.toNat_ofNat, Nat.shiftLeft_eq]
    omega
  rw [haddr]
  apply BitVec.eq_of_toNat_eq
  simp only [BitVec.toNat_add, toNat_append_eq_add, BitVec.toNat_ofNat]
  omega

/-- The sum of the fields of a format M word. -/
theorem formatM_add (op : BitVec 4) (addr : BitVec 16) (data : Byte) :
    (op ++ 0#28 : Word) + (addr.setWidth 32 <<< 8) + data.setWidth 32 = op ++ 0#4 ++ addr ++ data := by
  rw [formatM_add_addr]
  exact append_zero_add_setWidth (k := 24) (op ++ 0#4 ++ addr) data

/-- Settles O6: each form adds the fields of one format to a word that is 0 there. -/
theorem assemblerFormsEncode : Obligations.AssemblerFormsEncode := by
  intro l
  cases l with
  | step n => exact append_zero_add_setWidth 0x1#4 n
  | resetHard | resetSoft | postBoot => rfl
  | regRd r => exact formatM_add_addr 0x4#4 r.address
  | regWr r v => exact formatM_add 0x5#4 r.address v
  | vramRd a => exact formatM_add_addr 0x6#4 a
  | vramWr a v => exact formatM_add 0x7#4 a v
  | oamRd a => exact formatM_add_addr 0x8#4 a
  | oamWr a v => exact formatM_add 0x9#4 a v
  | dma p => exact append_zero_add_setWidth (0xA#4 ++ 0#20) p
  | frameRd i => exact append_zero_add_setWidth (0xB#4 ++ 0#11) i

end Sys2Proof.Machine
end

section
/-! The pixels of a rendered line, column by column (42_bg_window.md R167 to R180, 43_sprites.md R200 to R212). -/

namespace Sys2Proof.Machine

/-- Settles O49: SHADOW holds what the background and window passes leave (`linePixel_ci`), by the spec's sums
(`toNat_ci_windowOver_bgPixel`). -/
theorem shadowOfRenderedLine : Obligations.ShadowOfRenderedLine := by
  intro s px hpx
  rw [memRead_renderLine_shadow s hpx, linePixel_ci, toNat_ci_windowOver_bgPixel]

/-- What the two layer passes leave is a layer pixel (42_bg_window.md R172 to R174, R180). -/
theorem windowOver_bgPixel_eq_layerPixel (s : State) (px : Nat) :
    windowOver s px (bgPixel s px) = layerPixel s (windowOver s px (bgPixel s px)).ci := by
  unfold windowOver
  split <;> rfl

/-- The shade of a column whose shadow index is `ci`, where the sprite given shows there, if one does
(43_sprites.md R209, R212). -/
def shownShade (s : State) (px : Nat) (ci : ColourIndex) : Option SelEntry → Shade
  | some e => shadeOf (spritePalette s e) (spriteIndex s e px)
  | none => shadeOf s.bgp ci

/-- Of the elements drawn from last to first, the first that shows is the one seen (43_sprites.md R201). -/
theorem foldr_spriteOver_colour {s : State} {px : Nat} {ci : ColourIndex} (hci : ci.toNat = shadowIndexAt s px)
    (sel : List SelEntry) :
    (sel.foldr (spriteOver s px) (layerPixel s ci)).colour =
      colourAt s.params.colorTable (shownShade s px ci (sel.find? (spriteShows s px))) := by
  induction sel with
  | nil => rfl
  | cons e sel ih =>
    have hwrites : spriteWrites s e px (sel.foldr (spriteOver s px) (layerPixel s ci)).ci = spriteShows s px e := by
      rw [foldr_spriteOver_ci]
      exact spriteWrites_eq_spriteShows hci e
    rw [List.foldr_cons, spriteOver, hwrites, List.find?_cons]
    cases spriteShows s px e with
    | true => rfl
    | false => exact ih

theorem spritesOver_colour {s : State} {px : Nat} {ci : ColourIndex} (hci : ci.toNat = shadowIndexAt s px) :
    (spritesOver s px (layerPixel s ci)).colour =
      colourAt s.params.colorTable
        (shownShade s px ci (if spritesRun s then s.sel.find? (spriteShows s px) else none)) := by
  unfold spritesOver
  split
  · exact foldr_spriteOver_colour hci s.sel
  · rfl

/-- The shade shown, by the sums of 42_bg_window.md R172 and 43_sprites.md R209. -/
theorem toNat_shownShade {s : State} {px : Nat} {ci : ColourIndex} (hci : ci.toNat = shadowIndexAt s px) :
    (shownShade s px ci (if spritesRun s then s.sel.find? (spriteShows s px) else none)).toNat = shadeShownAt s px := by
  unfold shadeShownAt spritesRun
  generalize (if objEn s.lcdc && s.params.layerObj then s.sel.find? (spriteShows s px) else none) = shown
  cases shown with
  | some e => exact (toNat_shadeOf _ _).trans (congrArg (shadeNumber _) (toNat_spriteIndex s e px))
  | none => exact (toNat_shadeOf _ _).trans (congrArg (shadeNumber _) hci)

/-- Settles O50: a column's colour is that of the shade the sprite pass shows over the layer pixel. -/
theorem coloursOfRenderedLine : Obligations.ColoursOfRenderedLine := by
  intro s px c hpx hc
  have hci := toNat_ci_windowOver_bgPixel s px
  rw [memRead_renderLine_work s hpx hc, linePixel, windowOver_bgPixel_eq_layerPixel, spritesOver_colour hci,
    getD_colourBytes_colourAt _ _ hc, toNat_shownShade hci]

end Sys2Proof.Machine
end

section
/-! What a step runs, and the control commands that load a whole bank (70_reset_and_hazards.md R310, R311, 45_control.md
R265). -/

namespace Sys2Proof.Machine

theorem step_of_decode_command {s : State} {w : Word} {rest : List Word} {i : Instr} (hs : s.commands = w :: rest)
    (h : decode w = .command i) : step s = exec i { s with commands := rest } := by
  rw [step, hs]
  simp only [h]

theorem step_of_no_command {s : State} (hs : s.commands = []) : step s = .next s := by
  rw [step, hs]

theorem decode_of_decodeTableWord {nbits w : Nat} {i : Instr} (h : decodeTableWord nbits w = some i) :
    decode (tableWord nbits w) = .command i := by
  unfold decodeTableWord at h
  split at h
  next j hj => rw [hj, Option.some.inj h]
  next => cases h

/-- Settles O7: a word presented stands first on the port, and taking it leaves the state before. -/
theorem stepRunsNextCommand : Obligations.StepRunsNextCommand :=
  ⟨fun _ _ _ _ => step_of_decode_command, fun _ => step_of_no_command,
    fun _ _ _ _ h => step_of_decode_command rfl (decode_of_decodeTableWord h)⟩

/-- Settles O11: HardReset's record, with the ports cleared as at the start of every command. -/
theorem hardResetClearsBlock : Obligations.HardResetClearsBlock :=
  fun _ => rfl

/-- Settles O14: the post-boot bank and mode; the second half is the first under the default parameters. -/
theorem postBootLoadsParameters : Obligations.PostBootLoadsParameters :=
  ⟨fun _ => rfl, rfl⟩

end Sys2Proof.Machine
end

section
/-! How a command can stop: where it is refused, and the one fault (60_exceptions.md R281, 30_encoding.md R100). -/

namespace Sys2Proof.Machine

/-! ### The access commands outside their contract -/

theorem namesRegister_eq_false_iff (a : BitVec 16) :
    namesRegister a = false ↔ a.toNat % 256 < 0x40 ∨ 0x4B < a.toNat % 256 ∨ a.toNat % 256 = 0x46 := by
  have hlow : (lowByte a).toNat = a.toNat % 256 := oamOffset_eq_mod a
  rw [← Bool.not_eq_true, namesRegister, hlow]
  simp only [Bool.and_eq_true, decide_eq_true_eq]
  omega

theorem regOfAddr_eq_none_iff (a : BitVec 16) : regOfAddr a = none ↔ namesRegister a = false := by
  rw [← isSome_regOfAddr, Option.isSome_eq_false_iff, Option.isNone_iff_eq_none]

theorem execRegRd_refused_iff {a : BitVec 16} {s : State} {r : Refusal} :
    execRegRd a s = .refused r ↔ r = .noRegister ∧ namesRegister a = false := by
  rw [← regOfAddr_eq_none_iff]
  unfold execRegRd
  cases regOfAddr a <;> simp [eq_comm]

theorem execRegWr_refused_iff {a : BitVec 16} {v : Byte} {s : State} {r : Refusal} :
    execRegWr a v s = .refused r ↔ r = .noRegister ∧ namesRegister a = false := by
  rw [← regOfAddr_eq_none_iff]
  unfold execRegWr
  cases regOfAddr a <;> simp [eq_comm]

/-- A command under a guard on its operand is refused exactly where the guard stands. -/
theorem guard_refused_iff {limit k : Nat} {q r : Refusal} {u : State} :
    (if limit ≤ k then (.refused q : Host.Outcome State Fault Refusal) else .next u) = .refused r ↔
      r = q ∧ limit ≤ k := by
  split <;> simp [*, eq_comm]

/-! ### STEP -/

/-- The table faults exactly where a line would be rendered outside the frame (42_bg_window.md R166). -/
theorem transition_fault_iff {allowed : Bool} {s : State} {f : Fault} :
    transition allowed s = .fault f ↔ s.mode = .draw ∧ 172 ≤ s.cycles.toNat ∧ 144 ≤ s.ly.toNat := by
  constructor
  · intro h
    obtain ⟨t, ht⟩ | ⟨-, hcase⟩ := transition_outcome allowed s
    · cases h.symm.trans ht
    · exact hcase
  · rintro ⟨hm, hc, hly⟩
    cases f
    rw [transition, if_neg (by rw [hm]; exact Nat.not_lt.2 hc), hm]
    exact if_pos hly

theorem transition_ne_refused (allowed : Bool) (s : State) (r : Refusal) : transition allowed s ≠ .refused r := by
  intro h
  obtain ⟨t, ht⟩ | ⟨ht, -⟩ := transition_outcome allowed s <;> cases h.symm.trans ht

/-- An enabled STEP stops only where its table does. -/
theorem enabledStep_fault_iff {n : BitVec 28} {s : State} {f : Fault} :
    enabledStep n (clearOutputs s) = .fault f ↔ transition (!anyStat s.stat s.mode) (tableStart n s) = .fault f := by
  rw [enabledStep_eq]
  split <;> simp [*]

theorem enabledStep_ne_refused (n : BitVec 28) (s : State) (r : Refusal) : enabledStep n (clearOutputs s) ≠ .refused r := by
  rw [enabledStep_eq]
  split
  next => simp
  next => simp
  next q hq => exact absurd hq (transition_ne_refused _ _ q)

theorem execStep_refused_iff {n : BitVec 28} {s : State} {r : Refusal} :
    execStep n s = .refused r ↔
      r = .cycleOverflow ∧ lcdEn s.lcdc = true ∧ 2 ^ 32 ≤ startCycles s + n.toNat := by
  cases hl : lcdEn s.lcdc with
  | false => simp [execStep_disabled hl]
  | true =>
    by_cases hc : startCycles s + n.toNat < Config.cycleLimit
    · rw [execStep_enabled hl hc]
      exact ⟨fun h => absurd h (enabledStep_ne_refused n s r), fun h => absurd h.2.2 (Nat.not_le.2 hc)⟩
    · rw [Nat.not_lt] at hc
      rw [execStep_overflow hl hc]
      simp [eq_comm, hc]

/-- Settles O8: REG, OAM and FRAME accesses have a guard on their operand, STEP one on its count, and the rest have none. -/
theorem refusedExactlyOutsideContract : Obligations.RefusedExactlyOutsideContract := by
  intro i s r
  cases i with
  | step n => simp [exec, execStep_refused_iff, startCycles]
  | regRd a => simp [exec, execRegRd_refused_iff, namesRegister_eq_false_iff]
  | regWr a v => simp [exec, execRegWr_refused_iff, namesRegister_eq_false_iff]
  | oamRd a => simp [exec, execOamRd, guard_refused_iff, oamOffset_eq_mod]
  | oamWr a v => simp [exec, execOamWr, guard_refused_iff, oamOffset_eq_mod]
  | frameRd k => simp [exec, execFrameRd, guard_refused_iff]
  | resetHard | resetSoft | postBoot | vramRd | vramWr | dma =>
    simp [exec, execResetHard, execResetSoft, execPostBoot, execVramRd, execVramWr, execDma]

theorem execStep_fault_of_running_iff {n : BitVec 28} {s : State} {f : Fault} (hs : Running s)
    (hc : s.cycles.toNat + n.toNat < 2 ^ 32) :
    execStep n s = .fault f ↔ s.mode = .draw ∧ 172 ≤ s.cycles.toNat + n.toNat ∧ 144 ≤ s.ly.toNat := by
  have hlimit : startCycles s + n.toNat < Config.cycleLimit := by rwa [startCycles_of_not_wasDisabled hs.2]
  have hcount : (BitVec.ofNat 32 (s.cycles.toNat + n.toNat)).toNat = s.cycles.toNat + n.toNat := Nat.mod_eq_of_lt hc
  rw [execStep_enabled hs.1 hlimit, enabledStep_fault_iff, tableStart_of_running hs, transition_fault_iff]
  simp only [withCount, hcount]

/-- A STEP faults only on a running display: the re-enable soft reset would have returned to line 0. -/
theorem running_of_execStep_fault {n : BitVec 28} {s : State} {f : Fault} (h : execStep n s = .fault f) :
    Running s ∧ s.cycles.toNat + n.toNat < 2 ^ 32 := by
  have hl : lcdEn s.lcdc = true := by
    by_contra hoff
    rw [execStep_disabled (Bool.eq_false_of_not_eq_true hoff)] at h
    cases h
  have hd : s.wasDisabled = false := by
    by_contra hlatch
    rw [Bool.not_eq_false] at hlatch
    obtain ⟨-, hly⟩ := execStep_fault h
    simp [hlatch] at hly
  refine ⟨⟨hl, hd⟩, ?_⟩
  by_contra hc
  rw [Nat.not_lt, ← startCycles_of_not_wasDisabled hd] at hc
  rw [execStep_overflow hl hc] at h
  cases h

theorem exists_step_of_exec_fault {i : Instr} {s : State} {f : Fault} (h : exec i s = .fault f) : ∃ n, i = .step n := by
  cases i with
  | step n => exact ⟨n, rfl⟩
  | regRd | regWr =>
    simp only [exec, execRegRd, execRegWr] at h
    split at h <;> cases h
  | oamRd | oamWr | frameRd =>
    simp only [exec, execOamRd, execOamWr, execFrameRd] at h
    split at h <;> cases h
  | resetHard | resetSoft | postBoot | vramRd | vramWr | dma => cases h

/-- Settles O9: a fault is a STEP's (`exists_step_of_exec_fault`), on a running display (`running_of_execStep_fault`), and
there the table's (`transition_fault_iff`). -/
theorem faultsExactlyOnRenderOutsideFrame : Obligations.FaultsExactlyOnRenderOutsideFrame := by
  intro i s f
  constructor
  · intro h
    obtain ⟨n, rfl⟩ := exists_step_of_exec_fault h
    obtain ⟨hs, hc⟩ := running_of_execStep_fault h
    obtain ⟨hm, hdone, hly⟩ := (execStep_fault_of_running_iff hs hc).1 h
    exact ⟨rfl, n, rfl, hs, hm, hdone, hc, hly⟩
  · rintro ⟨-, n, rfl, hs, hm, hdone, hc, hly⟩
    exact (execStep_fault_of_running_iff hs hc).2 ⟨hm, hdone, hly⟩

/-! ### Commands inside their contract -/

theorem insideOam_iff (a : BitVec 16) : insideOam a = true ↔ a.toNat % 256 < 160 := by
  rw [← oamOffset_eq_mod]
  exact decide_eq_true_iff

/-- Settles O10: a command that is neither refused nor faults answers, and O8 and O9 say where it does either. -/
theorem wellFormedCommandsComplete : Obligations.WellFormedCommandsComplete := by
  intro i s hwf hstep
  cases h : exec i s with
  | next t => exact ⟨t, rfl⟩
  | fault f =>
    obtain ⟨-, n, hi, ⟨hl, hd⟩, hm, hdone, -, hly⟩ := (faultsExactlyOnRenderOutsideFrame i s f).1 h
    obtain hoff | ⟨-, hlatch | hdraw | hshort | hline⟩ := hstep n hi
    · cases hl.symm.trans hoff
    · cases hlatch.symm.trans hd
    · exact absurd hm hdraw
    · omega
    · omega
  | refused r =>
    obtain ⟨-, a, rfl | ⟨v, rfl⟩, ha⟩ | ⟨-, a, rfl | ⟨v, rfl⟩, ha⟩ | ⟨-, k, rfl, hk⟩ | ⟨-, n, rfl, hl, hc⟩ :=
      (refusedExactlyOutsideContract i s r).1 h
    · cases hwf.symm.trans ((namesRegister_eq_false_iff a).2 ha)
    · cases hwf.symm.trans ((namesRegister_eq_false_iff a).2 ha)
    · exact absurd ((insideOam_iff a).1 hwf) (Nat.not_lt.2 ha)
    · exact absurd ((insideOam_iff a).1 hwf) (Nat.not_lt.2 ha)
    · exact absurd (of_decide_eq_true hwf) (Nat.not_lt.2 hk)
    · obtain hoff | ⟨hlt, -⟩ := hstep n rfl
      · cases hl.symm.trans hoff
      · omega

end Sys2Proof.Machine
end
